-- ==== Sys2Proof/Word.lean ====
section
/-! DEFINITION. The word type of the block (rule R20: every register is 32 bits) and the byte of its
memory (rule R60). -/

namespace Sys2Proof

/-- A 32-bit register or command word (`XLEN = 32`, rule R20). -/
abbrev Word := BitVec 32

/-- One byte of the shared memory (rule R60). -/
abbrev Byte := BitVec 8

end Sys2Proof
end

