-- ==== Sys2Proof/Syntax.lean ====
section
/-! DEFINITION. The ten commands of `spec/opcode_table.json` and the fields of command format `C`
(rules R90, R91). -/

namespace Sys2Proof

/-- One constructor per row of the opcode table. A command carries no register number, address or
immediate (rule R90): its flags `B`, `M`, `O` are part of the row. -/
inductive Instr where
  | nop
  | planSize
  | setScratch
  | convolve
  | convolveB
  | requant
  | requantO
  | packCin
  | packCfilt
  | packPad
  deriving DecidableEq, Repr

/-- The fields of format `C` (table 30-1): `OPC` bits 7:0, `B` bit 8, `M` bits 10:9, `O` bit 11 and the
bits 31:12 that must be 0. -/
structure Fields where
  opc : BitVec 8
  b : Bool
  m : BitVec 2
  o : Bool
  reserved : BitVec 20
  deriving DecidableEq, Repr

end Sys2Proof
end

