-- ==== Sys2Proof/WellFormed.lean ====
section
/-! DEFINITION. Which command fields are legal (rules R91, R92, R98). -/

namespace Sys2Proof

/-- Bits 31:12 are 0 (rule R91). -/
def Fields.reservedZero (f : Fields) : Bool := f.reserved == 0#20

/-- The opcode is one of 0x00 to 0x05 (rule R94). -/
def Fields.opcodeAssigned (f : Fields) : Bool := decide (f.opc.toNat ≤ 5)

/-- `B` stands only on CONVOLVE (table 30-1). -/
def Fields.biasFlagUsed (f : Fields) : Bool := !f.b || f.opc == 3#8

/-- `M` stands only on PACK (table 30-1). -/
def Fields.modeUsed (f : Fields) : Bool := f.m == 0#2 || f.opc == 5#8

/-- `M = 3` is reserved (rule R93). -/
def Fields.modeLegal (f : Fields) : Bool := f.m != 3#2

/-- `O` stands only on REQUANT (table 30-1). -/
def Fields.outFlagUsed (f : Fields) : Bool := !f.o || f.opc == 4#8

/-- The fields of a legal command word (rule R98). -/
def Fields.wf (f : Fields) : Bool :=
  f.reservedZero && f.opcodeAssigned && f.biasFlagUsed && f.modeUsed && f.modeLegal && f.outFlagUsed

end Sys2Proof
end

