-- ==== Sys2Proof/Decode.lean ====
section
/-! DEFINITION. The decoder of rule R92, total on every 32-bit word and rejecting by name, and the
encoder written from tables 30-1 and 30-2. -/

namespace Sys2Proof

/-- `v[hi:lo]`: the unsigned integer formed by bits `hi` down to `lo` (rule R12). -/
def bits (v : Word) (hi lo : Nat) : Nat := v.toNat / 2 ^ lo % 2 ^ (hi + 1 - lo)

/-- Why a word is illegal (rule R98). Each of them is the one error `ERR_ILLEGAL_CMD`. -/
inductive IllegalCmd where
  /-- A 1 in bits 31:12. -/
  | reservedBits
  /-- An opcode from 0x06 to 0xFF. -/
  | unassignedOpcode
  /-- A flag bit set on a command that does not use it. -/
  | flagNotUsed
  /-- PACK with `M = 3`. -/
  | packModeReserved
  deriving DecidableEq, Repr

/-- PACK by its mode `M` (rule R96). -/
def decodePack (m : Nat) : Except IllegalCmd Instr :=
  match m with
  | 0 => .ok .packCin
  | 1 => .ok .packCfilt
  | 2 => .ok .packPad
  | _ => .error .packModeReserved

/-- Decoding in the order of rule R92. -/
def decodeWord (v : Word) : Except IllegalCmd Instr :=
  if bits v 31 12 ≠ 0 then .error .reservedBits
  else
    match bits v 7 0 with
    | 0 => if bits v 11 8 ≠ 0 then .error .flagNotUsed else .ok .nop
    | 1 => if bits v 11 8 ≠ 0 then .error .flagNotUsed else .ok .planSize
    | 2 => if bits v 11 8 ≠ 0 then .error .flagNotUsed else .ok .setScratch
    | 3 =>
      if bits v 11 9 ≠ 0 then .error .flagNotUsed
      else if bits v 8 8 = 1 then .ok .convolveB else .ok .convolve
    | 4 =>
      if bits v 10 8 ≠ 0 then .error .flagNotUsed
      else if bits v 11 11 = 1 then .ok .requantO else .ok .requant
    | 5 =>
      if bits v 8 8 ≠ 0 ∨ bits v 11 11 ≠ 0 then .error .flagNotUsed
      else decodePack (bits v 10 9)
    | _ => .error .unassignedOpcode

/-- The instruction the decoder reads from the table's numbering of a row's bits. A command is one
32-bit word (rule R90), so a longer row is none. -/
def decodeTableWord (nbits w : Nat) : Option Instr :=
  if nbits ≤ 32 then (decodeWord (BitVec.ofNat 32 (w % 2 ^ nbits))).toOption else none

/-- The fields tables 30-1 and 30-2 give each command. -/
def Instr.fields : Instr → Fields
  | .nop => ⟨0x00#8, false, 0#2, false, 0#20⟩
  | .planSize => ⟨0x01#8, false, 0#2, false, 0#20⟩
  | .setScratch => ⟨0x02#8, false, 0#2, false, 0#20⟩
  | .convolve => ⟨0x03#8, false, 0#2, false, 0#20⟩
  | .convolveB => ⟨0x03#8, true, 0#2, false, 0#20⟩
  | .requant => ⟨0x04#8, false, 0#2, false, 0#20⟩
  | .requantO => ⟨0x04#8, false, 0#2, true, 0#20⟩
  | .packCin => ⟨0x05#8, false, 0#2, false, 0#20⟩
  | .packCfilt => ⟨0x05#8, false, 1#2, false, 0#20⟩
  | .packPad => ⟨0x05#8, false, 2#2, false, 0#20⟩

/-- The word of format `C` with these fields (table 30-1). -/
def Fields.word (f : Fields) : Word :=
  f.reserved ++ BitVec.ofBool f.o ++ f.m ++ BitVec.ofBool f.b ++ f.opc

/-- The fields a word holds (table 30-1). -/
def Fields.ofWord (v : Word) : Fields :=
  { opc := BitVec.ofNat 8 (bits v 7 0)
    b := bits v 8 8 == 1
    m := BitVec.ofNat 2 (bits v 10 9)
    o := bits v 11 11 == 1
    reserved := BitVec.ofNat 20 (bits v 31 12) }

/-- The encoder. -/
def encode (i : Instr) : Word := i.fields.word

/-- A command has no operand, so a command is well formed as its row's fields are (rules R90, R98). -/
def Instr.wf (i : Instr) : Bool := i.fields.wf

end Sys2Proof
end

