-- ==== Sys2Proof/Config.lean ====
section
/-! DEFINITION. What an implementation fixes (00_scope.md section 4) and the free values (rule R13's
`any(T)`). -/

namespace Sys2Proof

/-- `RQ_MULH_TIE` (rule R123): how `MULH` resolves an exact tie. -/
inductive MulhTie where
  | away
  | up
  deriving DecidableEq, Repr

/-- `MULH` as the implementation fixes it (rule R126): a total function of its operands alone. State is
plain data, so the function is named here and computed by `Machine.mulh`. -/
inductive Mulh where
  /-- The function of rule R123 under a setting of `RQ_MULH_TIE`. -/
  | tied (tie : MulhTie)
  /-- Any other function: `Config.otherMulh`. -/
  | other
  deriving DecidableEq, Repr

/-- The open parameters and switches of the block (00_scope.md section 4), chosen once and never
changed by a step. `ALIGN_BOUNDARY` is held by its exponent, so that it is a power of two by its form
(rule R11). -/
structure Config where
  /-- `ALIGN_SLACK` (rules R11, R144). -/
  alignSlack : Nat
  /-- The exponent of `ALIGN_BOUNDARY` (rules R11, R212). -/
  alignBoundaryLog2 : Nat
  /-- `MULH` (rules R123, R126). -/
  mulh : Mulh
  /-- `PREPAD` (rules R166, R174); `true` is 1. -/
  prepad : Bool
  deriving DecidableEq, Repr

/-- `ALIGN_BOUNDARY` (rule R11). -/
def Config.alignBoundary (c : Config) : Nat := 2 ^ c.alignBoundaryLog2

/-- The constraint rule R11 puts on the two alignment parameters. -/
def Config.legal (c : Config) : Bool := decide (c.alignBoundary - 1 ≤ c.alignSlack)

/-- The suggested values 32 and 16 and the default switches (00_scope.md section 4) and the default `MULH`
of rule R126. DESIGN CHOICE (log 2): reset carries this configuration; claims hold for every configuration. -/
def Config.suggested : Config :=
  { alignSlack := 32, alignBoundaryLog2 := 4, mulh := .tied .away, prepad := false }

/-- A `MULH` of which nothing is known but that it is a function of its two operands (rule R126; log 2). -/
opaque Config.otherMulh : Word → Word → Word

/-- The free byte `any(u8)` of rule R13: draw number `n`, under no law (log 3). -/
opaque Config.anyByte : Nat → Byte

/-- The free word `any(u32)` (as a signed number `any(i32)`) of rule R13: draw number `n`, under no
law (log 3). -/
opaque Config.anyWord : Nat → Word

/-- `VEC` (rule R8). -/
def vec : Nat := 8

/-- `VEC_WIDE` (rule R8). -/
def vecWide : Nat := 16

/-- `MAX_CHANNELS` (rule R10). -/
def maxChannels : Nat := 65535

/-- `SHIFT_MIN` (rule R122). -/
def shiftMin : Int := -31

/-- `SHIFT_MAX` (rule R122). -/
def shiftMax : Int := 31

/-- The number of bytes of the address space, `2^32` (rule R60). -/
def memSize : Nat := 4294967296

end Sys2Proof
end

