-- ==== Sys2Proof/Machine/State.lean ====
section
/-! DEFINITION. The state of the block as plain data (rule R20), the reasons a step can stop, and the
state after reset (rule R55). -/

namespace Sys2Proof.Machine

/-- The shared byte memory (rule R60): listed bytes by address, strictly rising, none equal to what an
unlisted address reads as (`Memory.wf` in `Ops.lean`). -/
abbrev Memory := List Host.Cell

/-- The five causes of a command error (rule R231). -/
inductive ErrCode where
  | illegalCmd
  | noScratch
  | shape
  | align
  | range
  deriving DecidableEq, Repr

/-- The kernel variants the routing rule chooses from (rule R166). -/
inductive Path where
  | oneByOne
  | windowed
  | fallback
  deriving DecidableEq, Repr

/-- STATUS (rule R43) by its fields. The reserved bits 31:7 are not stored: they read 0 (rule R24).
DEDUCED (log 12). -/
structure Status where
  /-- `ERR`: the error of the most recent command, `none` for code 0. -/
  err : Option ErrCode
  /-- `SV`: a scratch region is registered. -/
  sv : Bool
  /-- `PATH`: the route of the most recent command, `none` for 0. -/
  path : Option Path
  deriving DecidableEq, Repr

/-- ERRLOG (rule R47): one sticky bit per error code. Bit 0 and bits 31:6 are not stored: they read 0. -/
structure ErrLog where
  illegalCmd : Bool
  noScratch : Bool
  shape : Bool
  align : Bool
  range : Bool
  deriving DecidableEq, Repr

/-- The names of the 22 operand registers (10_state.md section 3). -/
inductive OpReg where
  | inDims
  | inCh
  | filtDims
  | outDims
  | outCh
  | stride
  | pad
  | dilation
  | inZp
  | outZp
  | actMin
  | actMax
  | inAddr
  | filtAddr
  | biasAddr
  | outAddr
  | multAddr
  | shiftAddr
  | scratchArg
  | rqAcc
  | rqMult
  | rqShift
  deriving DecidableEq, Repr

/-- The 22 operand registers (rules R25 to R35). -/
structure OperandRegs where
  inDims : Word
  inCh : Word
  filtDims : Word
  outDims : Word
  outCh : Word
  stride : Word
  pad : Word
  dilation : Word
  inZp : Word
  outZp : Word
  actMin : Word
  actMax : Word
  inAddr : Word
  filtAddr : Word
  biasAddr : Word
  outAddr : Word
  multAddr : Word
  shiftAddr : Word
  scratchArg : Word
  rqAcc : Word
  rqMult : Word
  rqShift : Word
  deriving DecidableEq, Repr

/-- The 27 mapped registers (rules R21, R23). -/
inductive Reg where
  | cmd
  | status
  | result
  | scratchBase
  | errlog
  | op (r : OpReg)
  deriving DecidableEq, Repr

/-- `len` bytes from `base` (rules R67 to R72). -/
structure Range where
  base : Nat
  len : Nat
  deriving DecidableEq, Repr

/-- What the host says of a part of memory. -/
inductive RegionKind where
  /-- Handed over to the engine as scratch (rule R75). -/
  | scratch
  /-- Not owned by the host (rule R73; 93_implementation_defined.md U3). -/
  | notOwned
  /-- Memory whose reads have side effects (rule R66; 93_implementation_defined.md U4). -/
  | sideEffects
  deriving DecidableEq, Repr

/-- A part of memory the host has declared something of (rule R75). Memory no region names is the
host's own plain memory (rules R60, R66). -/
structure Region where
  kind : RegionKind
  range : Range
  deriving DecidableEq, Repr

/-- One access or event of the host, the agent that drives the block (rules R6, R21, R22, R23, R75,
R260, R262). -/
inductive HostAction where
  /-- `RegWrite(idx, v)` (rule R21); a write of CMD runs a command. -/
  | regWrite (idx : BitVec 8) (v : Word)
  /-- `RegRead(idx)` (rule R22). -/
  | regRead (idx : BitVec 8)
  /-- A write of `bytes` bytes at a byte offset of the register window (rule R23). -/
  | busWrite (offset : BitVec 10) (bytes : Nat) (v : Word)
  /-- A read of `bytes` bytes at a byte offset of the register window (rule R23). -/
  | busRead (offset : BitVec 10) (bytes : Nat)
  /-- The host stores a byte of memory (rules R60, R62; log 14). -/
  | memWrite (a : Word) (b : Byte)
  /-- The host loads a byte of memory (rules R60, R62; log 14). -/
  | memRead (a : Word)
  /-- The host declares something of a part of memory (rule R75). -/
  | declare (r : Region)
  /-- The host takes such a declaration back (rule R268). -/
  | withdraw (r : Region)
  /-- Reset between commands (rule R260). -/
  | reset
  /-- Reset while the command `v` is executing (rule R262). -/
  | resetDuring (v : Word)
  deriving DecidableEq, Repr

/-- The shape registers of rule R36 as the numbers every rule abbreviates them to (rules R25 to R32). -/
structure Shape where
  iw : Nat
  ih : Nat
  ic : Nat
  fw : Nat
  fh : Nat
  ow : Nat
  oh : Nat
  oc : Nat
  sw : Nat
  sh : Nat
  pw : Nat
  ph : Nat
  izp : Int
  ozp : Int
  amin : Int
  amax : Int
  deriving DecidableEq, Repr

/-- The three modes of PACK (rule R96). -/
inductive PackMode where
  | cin
  | cfilt
  | pad
  deriving DecidableEq, Repr

/-- The partial terms of a fast path for one output element (rules R191, R201, R203). -/
structure Terms where
  fsum : Int
  off : Int
  dot : Int
  acc0 : Int
  deriving DecidableEq, Repr

/-- The state of the block and of the host that drives it. CMD stores nothing (rule R42), so it has no
field. -/
structure State where
  /-- The parameters the implementation fixed; no step changes them (00_scope.md section 4). Held in the
  state so that a claim over all states covers every value of them: DESIGN CHOICE (log 2). -/
  cfg : Config
  /-- The operand registers (rules R25 to R35). -/
  regs : OperandRegs
  /-- STATUS (rule R43). -/
  status : Status
  /-- RESULT (rule R45). -/
  result : Word
  /-- SCRATCH_BASE (rule R46). -/
  scratchBase : Word
  /-- ERRLOG (rule R47). -/
  errlog : ErrLog
  /-- The shared memory (rule R60). -/
  mem : Memory
  /-- What the host has declared of memory (rule R75). The model's field: DESIGN CHOICE (log 4). -/
  regions : List Region
  /-- The accesses the host has still to make, the next one first (rule R6). The model's field: DESIGN
  CHOICE (log 5). -/
  host : List HostAction
  /-- The value the host's last read returned (rule R22). The model's field: DESIGN CHOICE (log 6). -/
  hostRead : Word
  /-- How many free values have been set aside (rule R13). The model's field: DESIGN CHOICE (log 3). -/
  draws : Nat
  deriving DecidableEq, Repr

/-- Where the spec calls a command `undefined` and says that a model faults (rule R13,
93_implementation_defined.md section 1). CONVOLVE and PACK raise these, and a reset during one. All are
safe: the model stops where the hardware goes on in a way nobody states. -/
inductive Fault where
  /-- A range the command writes overlaps another of its ranges (rule R73). Safe. -/
  | aliasedBuffers
  /-- A buffer of the command lies on memory the host does not own (rule R73, U3). Safe. -/
  | bufferNotOwned
  /-- A buffer of the command lies on memory whose reads have side effects (rule R66, U4). Safe. -/
  | bufferHasSideEffects
  /-- The bytes the command writes as scratch are not all handed over as scratch (rules R75, R268). Safe. -/
  | scratchNotHandedOver
  deriving DecidableEq, Repr

/-- Inputs the model refuses. -/
inductive Refusal where
  /-- `exec`'s arm of an instruction without a meaning. No arm answers it. Safe. -/
  | notModelled (mnemonic : String)
  /-- The host's register access is narrower than a word or misaligned: "not part of this interface and
  a model refuses it" (rule R23). `busRead` and `busWrite` raise it. Safe. -/
  | registerAccessNotWord
  /-- The host loads or stores a byte of memory it has declared not its own or a device's (rule R66,
  log 7): nothing states what such a location holds. `memRead` and `memWrite` raise it. Safe. -/
  | hostAccessNotPlain
  deriving DecidableEq, Repr

/-- The verdict on a CONVOLVE or PACK before it writes anything (rules R157, R216). -/
inductive Verdict where
  /-- The command ends with an error (rule R234). -/
  | err (code : ErrCode) (path : Option Path)
  /-- The command is `undefined` (rules R73, R75). -/
  | undef (f : Fault)
  /-- The command runs on this route. -/
  | go (path : Path)
  deriving DecidableEq, Repr

/-- All operand registers are 0 (rule R55). -/
def OperandRegs.zero : OperandRegs :=
  { inDims := 0, inCh := 0, filtDims := 0, outDims := 0, outCh := 0, stride := 0, pad := 0,
    dilation := 0, inZp := 0, outZp := 0, actMin := 0, actMax := 0, inAddr := 0, filtAddr := 0,
    biasAddr := 0, outAddr := 0, multAddr := 0, shiftAddr := 0, scratchArg := 0, rqAcc := 0,
    rqMult := 0, rqShift := 0 }

/-- STATUS = 0 (rule R55). -/
def Status.zero : Status := { err := none, sv := false, path := none }

/-- ERRLOG = 0 (rule R55). -/
def ErrLog.zero : ErrLog :=
  { illegalCmd := false, noScratch := false, shape := false, align := false, range := false }

/-- The machine right after reset (rules R55, R260): every register 0, no byte of memory listed. The
last four fields and `cfg` are the model's own: DESIGN CHOICE (logs 2 to 6). -/
def State.reset : State :=
  { cfg := Config.suggested
    regs := OperandRegs.zero
    status := Status.zero
    result := 0
    scratchBase := 0
    errlog := ErrLog.zero
    mem := []
    regions := []
    host := []
    hostRead := 0
    draws := 0 }

end Sys2Proof.Machine
end

