-- ==== Sys2Proof/Machine/Flags.lean ====
section
/-! DEFINITION. The block has no arithmetic flags (rule R41). This file holds the two registers that
report a command, STATUS and ERRLOG, and the range condition that no flag records (rule R171). -/

namespace Sys2Proof.Machine

/-- The number of an error code (rule R231). -/
def ErrCode.code : ErrCode → Nat
  | .illegalCmd => 1
  | .noScratch => 2
  | .shape => 3
  | .align => 4
  | .range => 5

/-- The number `STATUS.PATH` holds for a route (rule R43). -/
def Path.code : Path → Nat
  | .oneByOne => 1
  | .windowed => 2
  | .fallback => 3

/-- `STATUS.ERR` as a number: 0 when the command completed without error (rule R43). -/
def Status.errCode (st : Status) : Nat :=
  match st.err with
  | none => 0
  | some c => c.code

/-- `STATUS.PATH` as a number: 0 when the command did not route (rule R43). -/
def Status.pathCode (st : Status) : Nat :=
  match st.path with
  | none => 0
  | some p => p.code

/-- STATUS as the host reads it: `ERR[3:0]`, `SV[4]`, `PATH[6:5]`, bits 31:7 zero (rules R24, R43). -/
def Status.word (st : Status) : Word :=
  BitVec.ofNat 32 (st.errCode + 16 * st.sv.toNat + 32 * st.pathCode)

/-- ERRLOG bit of an error code (rule R47). -/
def ErrLog.get (l : ErrLog) : ErrCode → Bool
  | .illegalCmd => l.illegalCmd
  | .noScratch => l.noScratch
  | .shape => l.shape
  | .align => l.align
  | .range => l.range

/-- Set the ERRLOG bit of an error code (rule R47). -/
def ErrLog.set (l : ErrLog) : ErrCode → ErrLog
  | .illegalCmd => { l with illegalCmd := true }
  | .noScratch => { l with noScratch := true }
  | .shape => { l with shape := true }
  | .align => { l with align := true }
  | .range => { l with range := true }

/-- ERRLOG as the host reads it: bit `n` for code `n`, bit 0 and bits 31:6 zero (rule R47). -/
def ErrLog.word (l : ErrLog) : Word :=
  BitVec.ofNat 32 (2 * l.illegalCmd.toNat + 4 * l.noScratch.toNat + 8 * l.shape.toNat
    + 16 * l.align.toNat + 32 * l.range.toNat)

/-- STATUS after a command that completed: `ERR <- 0`, `PATH <- path`, `SV` kept. -/
def Status.completed (st : Status) (path : Option Path) : Status :=
  { st with err := none, path := path }

/-- STATUS after `raise Err(code)` (rule R234): `PATH` is 0 for `ERR_ILLEGAL_CMD` and `ERR_SHAPE`, the
route otherwise. -/
def Status.failed (st : Status) (code : ErrCode) (path : Option Path) : Status :=
  { st with
    err := some code
    path := match code with
      | .illegalCmd => none
      | .shape => none
      | .noScratch => path
      | .align => path
      | .range => path }

/-- `fits_i32(v)` (rule R12). -/
def fitsI32 (v : Int) : Bool := decide (-2147483648 ≤ v ∧ v ≤ 2147483647)

end Sys2Proof.Machine
end

