-- ==== Sys2Proof/Machine/Ops.lean ====
section
/-! DEFINITION. The shared operations over memory and registers, and the one way a command fails. -/

namespace Sys2Proof.Machine

/-- What an address that no write has reached reads as. DESIGN CHOICE (log 1): the spec leaves memory
contents to the host (rule R55). -/
def unlistedByte : Byte := 0

/-- The byte at an address (`MemRead(a, 1)`, rule R13). -/
def Memory.read : Memory → Nat → Byte
  | [], _ => unlistedByte
  | (a', b) :: rest, a => if a' = a then b else Memory.read rest a

/-- A listed byte put at its place by address. -/
def Memory.insert : Memory → Nat → Byte → Memory
  | [], a, b => [(a, b)]
  | (a', b') :: rest, a, b =>
    if a < a' then (a, b) :: (a', b') :: rest else (a', b') :: Memory.insert rest a b

/-- `MemWrite(a, 1, b)` (rule R13), keeping the canonical form: a byte equal to what an unlisted
address reads as is not listed. -/
def Memory.write (m : Memory) (a : Nat) (b : Byte) : Memory :=
  let m' : Memory := m.filter (fun c => c.1 != a)
  if b = unlistedByte then m' else Memory.insert m' a b

/-- Consecutive bytes from an address. -/
def Memory.writeBytes : Memory → Nat → List Byte → Memory
  | m, _, [] => m
  | m, a, b :: bs => Memory.writeBytes (m.write a b) (a + 1) bs

/-- The canonical form: addresses strictly rising and inside the address space (rule R60), no listed
byte equal to what an unlisted address reads as. -/
def Memory.wf : Memory → Bool
  | [] => true
  | (a, b) :: rest =>
    decide (a < memSize) && b != unlistedByte && rest.all (fun c => decide (a < c.1))
      && Memory.wf rest

/-- `MemRead(a, 4)`, little-endian (rule R62). -/
def Memory.read32 (m : Memory) (a : Nat) : Word :=
  m.read (a + 3) ++ m.read (a + 2) ++ m.read (a + 1) ++ m.read a

/-- `MemS8(a)` (rule R13). -/
def Memory.s8 (m : Memory) (a : Nat) : Int := (m.read a).toInt

/-- `MemS32(a)` (rule R13). -/
def Memory.s32 (m : Memory) (a : Nat) : Int := (m.read32 a).toInt

/-- Consecutive draws `any(u8)`, the first with number `start` (rule R13, log 3). -/
def anyBytes (start n : Nat) : List Byte :=
  (List.range n).map (fun k => Config.anyByte (start + k))

/-- The register file by register name. -/
def OperandRegs.get (g : OperandRegs) : OpReg → Word
  | .inDims => g.inDims
  | .inCh => g.inCh
  | .filtDims => g.filtDims
  | .outDims => g.outDims
  | .outCh => g.outCh
  | .stride => g.stride
  | .pad => g.pad
  | .dilation => g.dilation
  | .inZp => g.inZp
  | .outZp => g.outZp
  | .actMin => g.actMin
  | .actMax => g.actMax
  | .inAddr => g.inAddr
  | .filtAddr => g.filtAddr
  | .biasAddr => g.biasAddr
  | .outAddr => g.outAddr
  | .multAddr => g.multAddr
  | .shiftAddr => g.shiftAddr
  | .scratchArg => g.scratchArg
  | .rqAcc => g.rqAcc
  | .rqMult => g.rqMult
  | .rqShift => g.rqShift

/-- The bits of an operand register that are not reserved (rule R24). -/
def OpReg.mask : OpReg → Word
  | .inCh => 0x0000FFFF#32
  | .outCh => 0x0000FFFF#32
  | _ => 0xFFFFFFFF#32

/-- A host write of an operand register: the value with its reserved bits forced to zero (rule R21). -/
def OperandRegs.set (g : OperandRegs) (r : OpReg) (v : Word) : OperandRegs :=
  let w := v &&& r.mask
  match r with
  | .inDims => { g with inDims := w }
  | .inCh => { g with inCh := w }
  | .filtDims => { g with filtDims := w }
  | .outDims => { g with outDims := w }
  | .outCh => { g with outCh := w }
  | .stride => { g with stride := w }
  | .pad => { g with pad := w }
  | .dilation => { g with dilation := w }
  | .inZp => { g with inZp := w }
  | .outZp => { g with outZp := w }
  | .actMin => { g with actMin := w }
  | .actMax => { g with actMax := w }
  | .inAddr => { g with inAddr := w }
  | .filtAddr => { g with filtAddr := w }
  | .biasAddr => { g with biasAddr := w }
  | .outAddr => { g with outAddr := w }
  | .multAddr => { g with multAddr := w }
  | .shiftAddr => { g with shiftAddr := w }
  | .scratchArg => { g with scratchArg := w }
  | .rqAcc => { g with rqAcc := w }
  | .rqMult => { g with rqMult := w }
  | .rqShift => { g with rqShift := w }

/-- `raise Err(code)`, the block's one exception entry (rule R234): STATUS.ERR, STATUS.PATH and one
ERRLOG bit are written, nothing is saved and nothing else changes. There is no return from it
(rule R241): the command has ended. -/
def State.raise (s : State) (code : ErrCode) (path : Option Path) : State :=
  { s with status := s.status.failed code path, errlog := s.errlog.set code }

/-- The end of a command that completed: `STATUS.ERR <- 0`, `STATUS.PATH <- path`. -/
def State.complete (s : State) (path : Option Path) : State :=
  { s with status := s.status.completed path }

/-- Reset of the block (rule R260): every mapped register takes 0. Memory, and what belongs to the
host and to the implementation, is not touched. -/
def State.resetRegs (s : State) : State :=
  { s with
    regs := OperandRegs.zero
    status := Status.zero
    result := 0
    scratchBase := 0
    errlog := ErrLog.zero }

end Sys2Proof.Machine
end

