-- ==== Sys2Proof/Machine/Operands.lean ====
section
/-! DEFINITION. Every operand form: the fields of the operand registers (rules R25 to R35), the
addresses of tensor elements (rules R15, R67 to R71) and the arithmetic helpers of rule R14. -/

namespace Sys2Proof.Machine

/-- Field `[15:0]` of a register, unsigned (rules R25 to R30). -/
def lowHalf (w : Word) : Nat := w.toNat % 65536

/-- Field `[31:16]` of a register, unsigned (rules R25 to R30). -/
def highHalf (w : Word) : Nat := w.toNat / 65536

/-- The shape registers as every rule abbreviates them (rules R25 to R32). -/
def State.shape (s : State) : Shape :=
  { iw := lowHalf s.regs.inDims
    ih := highHalf s.regs.inDims
    ic := lowHalf s.regs.inCh
    fw := lowHalf s.regs.filtDims
    fh := highHalf s.regs.filtDims
    ow := lowHalf s.regs.outDims
    oh := highHalf s.regs.outDims
    oc := lowHalf s.regs.outCh
    sw := lowHalf s.regs.stride
    sh := highHalf s.regs.stride
    pw := lowHalf s.regs.pad
    ph := highHalf s.regs.pad
    izp := s.regs.inZp.toInt
    ozp := s.regs.outZp.toInt
    amin := s.regs.actMin.toInt
    amax := s.regs.actMax.toInt }

/-- Bytes of the input tensor (rule R67). -/
def Shape.inLen (p : Shape) : Nat := p.ih * p.iw * p.ic

/-- Bytes of the filter tensor (rule R68). -/
def Shape.filtLen (p : Shape) : Nat := p.oc * p.fh * p.fw * p.ic

/-- Bytes of the output tensor (rule R71). -/
def Shape.outLen (p : Shape) : Nat := p.oh * p.ow * p.oc

/-- Bytes of each 32-bit array (rules R69, R70). -/
def Shape.arrayLen (p : Shape) : Nat := 4 * p.oc

/-- The input buffer (rule R67). -/
def State.inRange (s : State) : Range := ⟨s.regs.inAddr.toNat, s.shape.inLen⟩

/-- The filter buffer (rule R68). -/
def State.filtRange (s : State) : Range := ⟨s.regs.filtAddr.toNat, s.shape.filtLen⟩

/-- The bias array (rule R69). -/
def State.biasRange (s : State) : Range := ⟨s.regs.biasAddr.toNat, s.shape.arrayLen⟩

/-- The multiplier array (rule R70). -/
def State.multRange (s : State) : Range := ⟨s.regs.multAddr.toNat, s.shape.arrayLen⟩

/-- The shift array (rule R70). -/
def State.shiftRange (s : State) : Range := ⟨s.regs.shiftAddr.toNat, s.shape.arrayLen⟩

/-- The output buffer (rule R71). -/
def State.outRange (s : State) : Range := ⟨s.regs.outAddr.toNat, s.shape.outLen⟩

/-- The offset of element `(y, x, c)` of a tensor of width `w` with `ch` channels (rule R15). -/
def tensorOffset (w ch y x c : Nat) : Nat := (y * w + x) * ch + c

/-- The offset of filter element `(oc, fy, fx, c)` (rule R15). -/
def filterOffset (p : Shape) (oc fy fx c : Nat) : Nat :=
  ((oc * p.fh + fy) * p.fw + fx) * p.ic + c

/-- The address of output element `(oy, ox, oc)` (rule R71). -/
def State.outElemAddr (s : State) (oy ox oc : Nat) : Nat :=
  s.regs.outAddr.toNat + tensorOffset s.shape.ow s.shape.oc oy ox oc

/-- Input element `In[y][x][c]` (rule R67). -/
def State.inElem (s : State) (y x c : Nat) : Int :=
  s.mem.s8 (s.regs.inAddr.toNat + tensorOffset s.shape.iw s.shape.ic y x c)

/-- Filter element `F[oc][fy][fx][c]` (rule R68). -/
def State.filtElem (s : State) (oc fy fx c : Nat) : Int :=
  s.mem.s8 (s.regs.filtAddr.toNat + filterOffset s.shape oc fy fx c)

/-- `bias[oc]`: 0, and no bias byte read, when `B = 0` (rule R69). -/
def State.biasElem (s : State) (b : Bool) (oc : Nat) : Int :=
  if b then s.mem.s32 (s.regs.biasAddr.toNat + 4 * oc) else 0

/-- `mult[oc]` (rule R70). -/
def State.multElem (s : State) (oc : Nat) : Int := s.mem.s32 (s.regs.multAddr.toNat + 4 * oc)

/-- `shift[oc]` (rule R70). -/
def State.shiftElem (s : State) (oc : Nat) : Int := s.mem.s32 (s.regs.shiftAddr.toNat + 4 * oc)

/-- The exact sum of `f 0`, …, `f (n - 1)`. -/
def sumTo : Nat → (Nat → Int) → Int
  | 0, _ => 0
  | n + 1, f => sumTo n f + f n

/-- `roundup(n, m)` (rule R14). -/
def roundup (n m : Nat) : Nat := m * ((n + m - 1) / m)

/-- `clamp(v, lo, hi)` (rule R14). -/
def clamp (v lo hi : Int) : Int := min (max v lo) hi

/-- `sign(n)` as rule R14 has it: `+1` for 0. -/
def signOf (n : Int) : Int := if n < 0 then -1 else 1

/-- `rha(n, k)`: round half away from zero of `n / 2^k` (rule R14). -/
def rha (n : Int) (k : Nat) : Int :=
  if k = 0 then n else signOf n * (((n.natAbs + 2 ^ (k - 1)) / 2 ^ k : Nat) : Int)

/-- `rhu(n, k)`: round half up of `n / 2^k` (rule R14). `Int.fdiv` is the floor. -/
def rhu (n : Int) (k : Nat) : Int :=
  if k = 0 then n else Int.fdiv (n + 2 ^ (k - 1)) (2 ^ k)

end Sys2Proof.Machine
end

