-- ==== Sys2Proof/Machine/Contract.lean ====
section
/-! DEFINITION. The caller's contract for the buffers of CONVOLVE and PACK (rules R66, R73, R75): where
it is broken the command is `undefined` and the model faults. -/

namespace Sys2Proof.Machine

/-- The address is one of the range's. -/
def Range.has (r : Range) (a : Nat) : Bool := decide (r.base ≤ a ∧ a < r.base + r.len)

/-- The two ranges share no byte (rule R73). -/
def Range.disjoint (r q : Range) : Bool :=
  decide (r.len = 0 ∨ q.len = 0 ∨ r.base + r.len ≤ q.base ∨ q.base + q.len ≤ r.base)

/-- The range ends inside the address space (rule R61). -/
def Range.fits (r : Range) : Bool := decide (r.base + r.len ≤ memSize)

/-- No two of the ranges share a byte. -/
def allDisjoint : List Range → Bool
  | [] => true
  | r :: rs => rs.all r.disjoint && allDisjoint rs

/-- Each written range is disjoint from every other range of the command (rule R73). Read ranges may
overlap one another. -/
def unaliased (reads writes : List Range) : Bool :=
  writes.all (fun w => reads.all w.disjoint) && allDisjoint writes

/-- The bytes from `lo` below `hi` all lie in regions of the list; each turn moves past one region. -/
def coveredBy (rs : List Range) : Nat → Nat → Nat → Bool
  | 0, lo, hi => decide (hi ≤ lo)
  | k + 1, lo, hi =>
    decide (hi ≤ lo) ||
      match rs.find? (fun r => r.has lo) with
      | none => false
      | some r => coveredBy rs k (r.base + r.len) hi

/-- The parts of memory the host has declared to be of this kind. -/
def State.regionsOf (s : State) (k : RegionKind) : List Range :=
  (s.regions.filter (fun r => decide (r.kind = k))).map Region.range

/-- The range is contained in the memory handed over as scratch (rule R75). -/
def State.handedOver (s : State) (r : Range) : Bool :=
  let rs := s.regionsOf .scratch
  coveredBy rs rs.length r.base (r.base + r.len)

/-- One of the ranges touches memory of this kind. -/
def State.touches (s : State) (k : RegionKind) (rs : List Range) : Bool :=
  (s.regionsOf k).any (fun q => rs.any (fun r => !r.disjoint q))

/-- What the contract lacks for a command that reads and writes these ranges, the last of which it
writes as scratch (rules R66, R73, R75). Several breaches at once are all `undefined`; the first is
named. DESIGN CHOICE (log 4). -/
def State.breach (s : State) (reads writes scratch : List Range) : Option Fault :=
  if !unaliased reads (writes ++ scratch) then some .aliasedBuffers
  else if s.touches .notOwned (reads ++ writes ++ scratch) then some .bufferNotOwned
  else if s.touches .sideEffects (reads ++ writes ++ scratch) then some .bufferHasSideEffects
  else if !scratch.all s.handedOver then some .scratchNotHandedOver
  else none

end Sys2Proof.Machine
end

