-- ==== Sys2Proof/Machine/Requantizer.lean ====
section
/-! DEFINITION. The fixed-point requantizer, the output stage (rules R121 to R127) and the command
REQUANT (rule R120). `none` stands for the spec's `any`: no value is promised. -/

namespace Sys2Proof.Machine

/-- `InDomain(acc, m, s)` (rule R122). -/
def inDomain (acc m s : Int) : Bool :=
  decide (0 ≤ m ∧ m ≤ 2147483647) && decide (shiftMin ≤ s ∧ s ≤ shiftMax)
    && fitsI32 (acc * 2 ^ (max s 0).toNat)

/-- `MULH(x, m)` under a setting of `RQ_MULH_TIE` (rule R123). -/
def tiedMulh (tie : MulhTie) (x m : Int) : Int :=
  if x = -2147483648 ∧ m = -2147483648 then 2147483647
  else match tie with
    | .away => rha (x * m) 31
    | .up => rhu (x * m) 31

/-- `MULH(x, m)`, the function the implementation fixed, `i32 → i32 → i32` (rule R126). -/
def mulh (f : Mulh) (x m : Int) : Int :=
  match f with
  | .tied tie => tiedMulh tie x m
  | .other => (Config.otherMulh (BitVec.ofInt 32 x) (BitVec.ofInt 32 m)).toInt

/-- `RQ(acc, m, s)` inside its domain (rule R121). -/
def rqValue (f : Mulh) (acc m s : Int) : Int :=
  rha (mulh f (acc * 2 ^ (max s 0).toNat) m) (max (-s) 0).toNat

/-- `RQ(acc, m, s)` (rule R121); `none` is `any(i32)` (rule R122). -/
def rq (f : Mulh) (acc m s : Int) : Option Int :=
  if inDomain acc m s then some (rqValue f acc m s) else none

/-- `OUT8(y, OZP, AMIN, AMAX)` (rule R127); `none` is `any(u8)`. -/
def out8 (y ozp amin amax : Int) : Option Byte :=
  if fitsI32 (y + ozp) then some (BitVec.ofInt 8 (clamp (y + ozp) amin amax)) else none

/-- The requantizer and the output stage for one accumulator (rules R120, R129); `none` is `any(u8)`,
not confined to the clamp interval (93_implementation_defined.md V2). DEDUCED (log 10). -/
def requantByte (f : Mulh) (acc m s ozp amin amax : Int) : Option Byte :=
  (rq f acc m s).bind (fun y => out8 y ozp amin amax)

/-- REQUANT on the operand registers (rules R35, R120). -/
def State.rqOperands (s : State) : Option Int :=
  rq s.cfg.mulh s.regs.rqAcc.toInt s.regs.rqMult.toInt s.regs.rqShift.toInt

/-- REQUANT.O on the operand registers (rules R35, R120). -/
def State.rqOutByte (s : State) : Option Byte :=
  requantByte s.cfg.mulh s.regs.rqAcc.toInt s.regs.rqMult.toInt s.regs.rqShift.toInt
    s.shape.ozp s.shape.amin s.shape.amax

/-- REQUANT, `O = 0` (rule R120). One draw is set aside for an operand outside the domain. -/
def execRequant (s : State) : Host.Outcome State Fault Refusal :=
  .next ({ s with
    result := ((s.rqOperands.map (BitVec.ofInt 32)).getD (Config.anyWord s.draws))
    draws := s.draws + 1 }.complete none)

/-- The check of REQUANT with `O = 1` (rule R120). -/
def Shape.outStageInvalid (p : Shape) : Bool := decide (p.ozp < -128 ∨ p.ozp > 127 ∨ p.amin > p.amax)

/-- REQUANT with `O = 1` (rule R120): RESULT receives the sign-extended output byte. -/
def execRequantO (s : State) : Host.Outcome State Fault Refusal :=
  if s.shape.outStageInvalid then .next (s.raise .shape none)
  else .next ({ s with
    result := (s.rqOutByte.getD (Config.anyByte s.draws)).signExtend 32
    draws := s.draws + 1 }.complete none)

end Sys2Proof.Machine
end

