-- ==== Sys2Proof/Machine/Shapes.lean ====
section
/-! DEFINITION. The functions of the shape registers that PLAN_SIZE, CONVOLVE and PACK share: shape
validation (rule R160), routing (rules R165, R166) and the planner's formulas (rules R141 to R144). -/

namespace Sys2Proof.Machine

/-- First check of rule R160: a zero dimension. -/
def Shape.zeroDim (p : Shape) : Bool :=
  decide (p.iw = 0 ∨ p.ih = 0 ∨ p.ic = 0 ∨ p.fw = 0 ∨ p.fh = 0 ∨ p.ow = 0 ∨ p.oh = 0 ∨ p.oc = 0)

/-- Second check of rule R160: the channel bound. -/
def Shape.tooManyChannels (p : Shape) : Bool := decide (p.ic > maxChannels ∨ p.oc > maxChannels)

/-- Third check of rule R160: a zero stride. -/
def Shape.zeroStride (p : Shape) : Bool := decide (p.sw = 0 ∨ p.sh = 0)

/-- Fourth check of rule R160: the filter is larger than the padded input. -/
def Shape.filterTooLarge (p : Shape) : Bool :=
  decide (p.fw > p.iw + 2 * p.pw ∨ p.fh > p.ih + 2 * p.ph)

/-- Fifth check of rule R160: the last window lies outside the padded input (rule R161). -/
def Shape.windowOutside (p : Shape) : Bool :=
  decide ((p.ow - 1) * p.sw + p.fw > p.iw + 2 * p.pw ∨ (p.oh - 1) * p.sh + p.fh > p.ih + 2 * p.ph)

/-- Sixth check of rule R160: a zero point outside the signed 8-bit range. -/
def Shape.zeroPointOutside (p : Shape) : Bool :=
  decide (p.izp < -128 ∨ p.izp > 127 ∨ p.ozp < -128 ∨ p.ozp > 127)

/-- Seventh check of rule R160: an empty activation interval. -/
def Shape.activationEmpty (p : Shape) : Bool := decide (p.amin > p.amax)

/-- `ValidateShape()` passes (rule R160). -/
def Shape.valid (p : Shape) : Bool :=
  !(p.zeroDim || p.tooManyChannels || p.zeroStride || p.filterTooLarge || p.windowOutside
    || p.zeroPointOutside || p.activationEmpty)

/-- `Is1x1Class` (rule R141). -/
def Shape.is1x1 (p : Shape) : Bool :=
  decide (p.fw = 1 ∧ p.fh = 1 ∧ p.pw = 0 ∧ p.ph = 0 ∧ p.sw = 1 ∧ p.sh = 1)

/-- "Padding is (0,0)" (rule R166). -/
def Shape.unpadded (p : Shape) : Bool := decide (p.pw = 0 ∧ p.ph = 0)

/-- `Route()` (rule R166). -/
def route (cfg : Config) (p : Shape) : Path :=
  if p.is1x1 then .oneByOne
  else if p.unpadded then .windowed
  else if cfg.prepad && decide (-127 ≤ p.izp) then .windowed
  else .fallback

/-- `NeedsScratch(path)` (rule R165). -/
def needsScratch : Path → Bool
  | .oneByOne => true
  | .windowed => true
  | .fallback => false

/-- `PackRc()`: the rounded channel count (rules R142, R143, R211). -/
def Shape.rc (p : Shape) : Nat := if p.is1x1 then roundup p.ic vec else roundup p.ic vecWide

/-- The size terms of the 1×1 class (rule R142). -/
def Shape.terms1x1 (p : Shape) : Nat :=
  let rc := roundup p.ic 8
  (if rc ≠ p.ic then p.iw * p.ih * rc else 0) + (if rc ≠ p.ic then rc * p.oc else 0)
    + (if p.iw * p.ih ≥ 8 then 2 * 8 * rc else 0)

/-- The size terms of all other geometries (rule R143). -/
def Shape.termsOther (p : Shape) : Nat :=
  let rc := roundup p.ic 16
  (if p.pw ≠ 0 ∨ p.ph ≠ 0 then (p.iw + 2 * p.pw) * (p.ih + 2 * p.ph) * p.ic else 0)
    + p.fw * p.fh * rc * p.oc + 4 * p.oc

/-- `PlannedSize()` (rule R144). -/
def plannedSize (cfg : Config) (p : Shape) : Nat :=
  (if p.is1x1 then p.terms1x1 else p.termsOther) + cfg.alignSlack

/-- The route of the shape the registers hold. -/
def State.route (s : State) : Path := Sys2Proof.Machine.route s.cfg s.shape

/-- The planned size of the shape the registers hold. -/
def State.plannedSize (s : State) : Nat := Sys2Proof.Machine.plannedSize s.cfg s.shape

/-- The planned size does not fit 32 bits (rules R140, R149). -/
def State.planTooLarge (s : State) : Bool := decide (s.plannedSize > 4294967295)

/-- The scratch footprint of a CONVOLVE on a route that uses scratch (rule R72). -/
def State.scratchRange (s : State) : Range := ⟨s.scratchBase.toNat, s.plannedSize⟩

end Sys2Proof.Machine
end

