-- ==== Sys2Proof/Machine/Stager.lean ====
section
/-! DEFINITION. The Layout Stager (rules R211 to R213) and the command PACK (rules R216 to R220). -/

namespace Sys2Proof.Machine

/-- Byte `k` of `PadChannels(T, n, C, rc)` for the byte array at `base` (rule R211). -/
def padChannelsByte (m : Memory) (base ch rc k : Nat) : Byte :=
  if k % rc < ch then m.read (base + (k / rc * ch + k % rc)) else 0

/-- `IW' = IW + 2 × PW` (rule R213). -/
def Shape.padWidth (p : Shape) : Nat := p.iw + 2 * p.pw

/-- `IH' = IH + 2 × PH` (rule R213). -/
def Shape.padHeight (p : Shape) : Nat := p.ih + 2 * p.ph

/-- The border byte `trunc_8(-IZP)` (rule R213). -/
def Shape.fillByte (p : Shape) : Byte := BitVec.ofInt 8 (-p.izp)

/-- Element `(y, x, c)` of `PadSpatial(In)` as a byte (rule R213). -/
def State.padElem (s : State) (y x c : Nat) : Byte :=
  if s.shape.ph ≤ y ∧ y < s.shape.ph + s.shape.ih ∧ s.shape.pw ≤ x ∧ x < s.shape.pw + s.shape.iw then
    s.mem.read (s.regs.inAddr.toNat
      + tensorOffset s.shape.iw s.shape.ic (y - s.shape.ph) (x - s.shape.pw) c)
  else s.shape.fillByte

/-- Byte `k` of `PadSpatial(In)` in its NHWC order (rules R15, R213). -/
def State.padSpatialByte (s : State) (k : Nat) : Byte :=
  s.padElem (k / s.shape.ic / s.shape.padWidth) (k / s.shape.ic % s.shape.padWidth) (k % s.shape.ic)

/-- The source buffer `(src, srclen)` of a PACK mode (rules R218 to R220). -/
def State.packSource (s : State) : PackMode → Range
  | .cin => s.inRange
  | .cfilt => s.filtRange
  | .pad => s.inRange

/-- The output length `n` of a PACK mode (rules R218 to R220). -/
def Shape.packLen (p : Shape) : PackMode → Nat
  | .cin => p.ih * p.iw * p.rc
  | .cfilt => p.oc * p.fh * p.fw * p.rc
  | .pad => p.padHeight * p.padWidth * p.ic

/-- Output byte `k` of a PACK mode (rules R218 to R220). -/
def State.packByte (s : State) (mode : PackMode) (k : Nat) : Byte :=
  match mode with
  | .cin => padChannelsByte s.mem s.regs.inAddr.toNat s.shape.ic s.shape.rc k
  | .cfilt => padChannelsByte s.mem s.regs.filtAddr.toNat s.shape.ic s.shape.rc k
  | .pad => s.padSpatialByte k

/-- The destination `align_up(SCRATCH_BASE, ALIGN_BOUNDARY)` (rules R212, R216). -/
def State.packDst (s : State) : Nat := roundup s.scratchBase.toNat s.cfg.alignBoundary

/-- The written range `[dst, dst + n)` (rule R216). -/
def State.packRange (s : State) (mode : PackMode) : Range := ⟨s.packDst, s.shape.packLen mode⟩

/-- A buffer of PACK does not fit the address space (rule R216), or the planned size does not fit 32 bits
(rule R149). Rules R216 and R239 do not list the planned size for PACK; rule R149 names PACK, and the
model follows it. DESIGN CHOICE (log 15). -/
def State.packOutOfRange (s : State) (mode : PackMode) : Bool :=
  !(s.packSource mode).fits || decide (s.shape.packLen mode > 4294967295)
    || s.planTooLarge || (s.status.sv && !(s.packRange mode).fits)

/-- The checks and preconditions of PACK, in the order of rule R216. -/
def State.packVerdict (s : State) (mode : PackMode) : Verdict :=
  if !s.shape.valid then .err .shape none
  else if decide (mode = .pad) && decide (s.shape.izp = -128) then .err .shape none
  else if s.packOutOfRange mode then .err .range (some s.route)
  else if !s.status.sv then .err .noScratch (some s.route)
  else match s.breach [s.packSource mode] [] [s.packRange mode] with
    | some f => .undef f
    | none => .go s.route

/-- The state after a PACK that runs (rules R216, R217). -/
def State.packed (s : State) (mode : PackMode) (path : Path) : State :=
  { s with
    mem := s.mem.writeBytes s.packDst ((List.range (s.shape.packLen mode)).map (s.packByte mode))
    result := BitVec.ofNat 32 s.packDst }.complete (some path)

/-- PACK (rule R216). -/
def packWith (mode : PackMode) (s : State) : Host.Outcome State Fault Refusal :=
  match s.packVerdict mode with
  | .err code path => .next (s.raise code path)
  | .undef f => .fault f
  | .go path => .next (s.packed mode path)

/-- PACK.CIN (rule R218). -/
def execPackCin (s : State) : Host.Outcome State Fault Refusal := packWith .cin s

/-- PACK.CFILT (rule R219). -/
def execPackCfilt (s : State) : Host.Outcome State Fault Refusal := packWith .cfilt s

/-- PACK.PAD (rule R220). -/
def execPackPad (s : State) : Host.Outcome State Fault Refusal := packWith .pad s

end Sys2Proof.Machine
end

