-- ==== Sys2Proof/Machine/Convolve.lean ====
section
/-! DEFINITION. CONVOLVE (rule R157): its checks (rules R162, R163, R168), the arithmetic of one output
element on each of the three paths (rules R170 to R173, R190 to R192, R200 to R203, R207) and what a
completed command writes (rules R71, R74). -/

namespace Sys2Proof.Machine

/-- The contribution of filter position `(fy, fx)` to `acc0` of output element `(oy, ox, oc)`: nothing
where the input coordinate lies outside the input (rules R170, R172). -/
def State.tapSum (s : State) (oy ox oc fy fx : Nat) : Int :=
  let iy : Int := (oy * s.shape.sh + fy : Nat) - (s.shape.ph : Int)
  let ix : Int := (ox * s.shape.sw + fx : Nat) - (s.shape.pw : Int)
  if 0 ≤ iy ∧ iy < s.shape.ih ∧ 0 ≤ ix ∧ ix < s.shape.iw then
    sumTo s.shape.ic (fun c =>
      (s.inElem iy.toNat ix.toNat c + s.shape.izp) * s.filtElem oc fy fx c)
  else 0

/-- `acc0` of rule R170: the reference arithmetic, which the Generic Fallback Path computes (rule R173). -/
def State.refAcc0 (s : State) (oy ox oc : Nat) : Int :=
  sumTo s.shape.fh (fun fy => sumTo s.shape.fw (fun fx => s.tapSum oy ox oc fy fx))

/-- The partial terms of the 1×1 Fast Path (rule R191). -/
def State.pixelTerms (s : State) (oy ox oc : Nat) : Terms :=
  let fsum := sumTo s.shape.ic (fun c => s.filtElem oc 0 0 c)
  let off := fsum * s.shape.izp
  let dot := sumTo s.shape.ic (fun c => s.inElem oy ox c * s.filtElem oc 0 0 c)
  { fsum := fsum, off := off, dot := dot, acc0 := dot + off }

/-- The input the Windowed Fast Path reads, by its flat NHWC offset: the input itself, or with padding
(`PREPAD = 1`) the padded copy (rules R202, R207), read by its contents, not by an address in scratch.
DEDUCED (log 11). -/
def State.windowIn (s : State) (k : Nat) : Int :=
  if s.shape.unpadded then s.mem.s8 (s.regs.inAddr.toNat + k) else (s.padSpatialByte k).toInt

/-- The width of that input: `IW`, or `IW'` of the padded copy (rules R202, R207). -/
def Shape.windowWidth (p : Shape) : Nat := if p.unpadded then p.iw else p.padWidth

/-- `row_dot(oy, ox, oc, fy)`: one flattened filter row of `L = FW × IC` products (rule R202). -/
def State.rowDot (s : State) (oy ox oc fy : Nat) : Int :=
  let inRow := ((oy * s.shape.sh + fy) * s.shape.windowWidth + ox * s.shape.sw) * s.shape.ic
  let filtRow := s.regs.filtAddr.toNat + (oc * s.shape.fh + fy) * s.shape.fw * s.shape.ic
  sumTo (s.shape.fw * s.shape.ic) (fun k => s.windowIn (inRow + k) * s.mem.s8 (filtRow + k))

/-- The partial terms of the Windowed Fast Path (rules R201, R203). -/
def State.windowTerms (s : State) (oy ox oc : Nat) : Terms :=
  let volume := s.shape.fh * s.shape.fw * s.shape.ic
  let fsum := sumTo volume (fun k => s.mem.s8 (s.regs.filtAddr.toNat + oc * volume + k))
  let off := fsum * s.shape.izp
  let dot := sumTo s.shape.fh (fun fy => s.rowDot oy ox oc fy)
  { fsum := fsum, off := off, dot := dot, acc0 := dot + off }

/-- `acc0` as the path computes it (rules R170, R191, R203). -/
def State.pathAcc0 (s : State) (path : Path) (oy ox oc : Nat) : Int :=
  match path with
  | .oneByOne => (s.pixelTerms oy ox oc).acc0
  | .windowed => (s.windowTerms oy ox oc).acc0
  | .fallback => s.refAcc0 oy ox oc

/-- The path's partial terms fit 32 bits (rules R171, R191, R201, R203, R207). DEDUCED (log 9). -/
def State.pathTermsFit (s : State) (path : Path) (oy ox oc : Nat) : Bool :=
  match path with
  | .oneByOne =>
    fitsI32 (s.pixelTerms oy ox oc).fsum && fitsI32 (s.pixelTerms oy ox oc).off
      && fitsI32 (s.pixelTerms oy ox oc).dot
  | .windowed =>
    fitsI32 (s.windowTerms oy ox oc).fsum && fitsI32 (s.windowTerms oy ox oc).off
      && fitsI32 (s.windowTerms oy ox oc).dot
  | .fallback => true

/-- From `acc0` to the output byte: bias, range check, requantizer and output stage with the pair of
channel `oc` (rules R129, R170, R171); `none` is `any(u8)`. -/
def State.finishElem (s : State) (b : Bool) (oc : Nat) (acc0 : Int) : Option Byte :=
  let acc := acc0 + s.biasElem b oc
  if fitsI32 acc0 && fitsI32 acc then
    requantByte s.cfg.mulh acc (s.multElem oc) (s.shiftElem oc) s.shape.ozp s.shape.amin
      s.shape.amax
  else none

/-- `ConvElem(oy, ox, oc)`, the reference value of an output element (rule R170). -/
def State.convElem (s : State) (b : Bool) (oy ox oc : Nat) : Option Byte :=
  s.finishElem b oc (s.refAcc0 oy ox oc)

/-- The value of an output element as the path computes it (rules R170, R192, R203). -/
def State.pathElem (s : State) (b : Bool) (path : Path) (oy ox oc : Nat) : Option Byte :=
  if s.pathTermsFit path oy ox oc then s.finishElem b oc (s.pathAcc0 path oy ox oc) else none

/-- Byte `k` of the output tensor in its NHWC order (rule R71). An element without a promised value is
draw `draws + k`. -/
def State.outByte (s : State) (b : Bool) (path : Path) (k : Nat) : Byte :=
  (s.pathElem b path (k / s.shape.oc / s.shape.ow) (k / s.shape.oc % s.shape.ow)
    (k % s.shape.oc)).getD (Config.anyByte (s.draws + k))

/-- The buffers a CONVOLVE reads (rules R67 to R70). -/
def State.convReads (s : State) (b : Bool) : List Range :=
  [s.inRange, s.filtRange, s.multRange, s.shiftRange] ++ (if b then [s.biasRange] else [])

/-- The scratch footprint of the route, if it has one (rules R72, R165). -/
def State.convScratch (s : State) (path : Path) : List Range :=
  if needsScratch path then [s.scratchRange] else []

/-- `ValidateRange(path)` finds a buffer or a needed scratch size that does not fit (rule R162). Rule R149,
which names no route and cites rule R162, is read with that rule's `NeedsScratch(path)`. DESIGN CHOICE
(log 15). -/
def State.convOutOfRange (s : State) (b : Bool) (path : Path) : Bool :=
  !s.inRange.fits || !s.filtRange.fits || !s.outRange.fits || !s.multRange.fits
    || !s.shiftRange.fits || (b && !s.biasRange.fits)
    || (needsScratch path && s.planTooLarge)
    || (needsScratch path && s.status.sv && !s.scratchRange.fits)

/-- `ValidateAlign()` finds a misaligned 32-bit array (rule R163). -/
def State.convMisaligned (s : State) (b : Bool) : Bool :=
  decide (s.regs.multAddr.toNat % 4 ≠ 0) || decide (s.regs.shiftAddr.toNat % 4 ≠ 0)
    || (b && decide (s.regs.biasAddr.toNat % 4 ≠ 0))

/-- The checks and preconditions of CONVOLVE, in the order of rule R157. -/
def State.convVerdict (s : State) (b : Bool) : Verdict :=
  if !s.shape.valid then .err .shape none
  else if s.convOutOfRange b s.route then .err .range (some s.route)
  else if s.convMisaligned b then .err .align (some s.route)
  else if needsScratch s.route && !s.status.sv then .err .noScratch (some s.route)
  else match s.breach (s.convReads b) [s.outRange] (s.convScratch s.route) with
    | some f => .undef f
    | none => .go s.route

/-- How many draws a CONVOLVE sets aside: one for each output byte and one for each byte of its scratch
footprint. -/
def State.convDraws (s : State) (path : Path) : Nat :=
  s.shape.outLen + (if needsScratch path then s.plannedSize else 0)

/-- Memory after a CONVOLVE that runs: the whole output tensor (rule R71), and every byte of the scratch
footprint a draw (rule R74). -/
def State.convMem (s : State) (b : Bool) (path : Path) : Memory :=
  let m := s.mem.writeBytes s.regs.outAddr.toNat
    ((List.range s.shape.outLen).map (s.outByte b path))
  if needsScratch path then
    m.writeBytes s.scratchBase.toNat (anyBytes (s.draws + s.shape.outLen) s.plannedSize)
  else m

/-- The state after a CONVOLVE that runs (rule R157). -/
def State.convolved (s : State) (b : Bool) (path : Path) : State :=
  { s with mem := s.convMem b path, draws := s.draws + s.convDraws path }.complete (some path)

/-- CONVOLVE with the flag `B` (rule R157). -/
def convolveWith (b : Bool) (s : State) : Host.Outcome State Fault Refusal :=
  match s.convVerdict b with
  | .err code path => .next (s.raise code path)
  | .undef f => .fault f
  | .go path => .next (s.convolved b path)

/-- CONVOLVE (rule R157), no bias. -/
def execConvolve (s : State) : Host.Outcome State Fault Refusal := convolveWith false s

/-- CONVOLVE.B (rule R157), with the bias array. -/
def execConvolveB (s : State) : Host.Outcome State Fault Refusal := convolveWith true s

end Sys2Proof.Machine
end

