-- ==== Sys2Proof/Machine/Planner.lean ====
section
/-! DEFINITION. PLAN_SIZE (rule R140). -/

namespace Sys2Proof.Machine

/-- PLAN_SIZE (rule R140). -/
def execPlanSize (s : State) : Host.Outcome State Fault Refusal :=
  if !s.shape.valid then .next (s.raise .shape none)
  else if s.planTooLarge then .next (s.raise .range (some s.route))
  else .next ({ s with result := BitVec.ofNat 32 s.plannedSize }.complete (some s.route))

end Sys2Proof.Machine
end

