-- ==== Sys2Proof/Machine/System.lean ====
section
/-! DEFINITION. NOP and SET_SCRATCH (rules R155, R156). -/

namespace Sys2Proof.Machine

/-- NOP (rule R155). -/
def execNop (s : State) : Host.Outcome State Fault Refusal := .next (s.complete none)

/-- The registration slot after SET_SCRATCH with this operand (rule R156). -/
def State.register (s : State) (a : Word) : State :=
  if a ≠ 0 then { s with scratchBase := a, status := { s.status with sv := true } }
  else { s with scratchBase := 0, status := { s.status with sv := false } }

/-- SET_SCRATCH (rule R156). -/
def execSetScratch (s : State) : Host.Outcome State Fault Refusal :=
  .next ((s.register s.regs.scratchArg).complete none)

end Sys2Proof.Machine
end

