-- ==== Sys2Proof/Machine/Dispatch.lean ====
section
/-! DEFINITION. One arm per command (rule R94). -/

namespace Sys2Proof.Machine

def exec (i : Instr) (s : State) : Host.Outcome State Fault Refusal :=
  match i with
  | .nop => Sys2Proof.Machine.execNop s
  | .planSize => Sys2Proof.Machine.execPlanSize s
  | .setScratch => Sys2Proof.Machine.execSetScratch s
  | .convolve => Sys2Proof.Machine.execConvolve s
  | .convolveB => Sys2Proof.Machine.execConvolveB s
  | .requant => Sys2Proof.Machine.execRequant s
  | .requantO => Sys2Proof.Machine.execRequantO s
  | .packCin => Sys2Proof.Machine.execPackCin s
  | .packCfilt => Sys2Proof.Machine.execPackCfilt s
  | .packPad => Sys2Proof.Machine.execPackPad s

end Sys2Proof.Machine
end

