-- ==== Sys2Proof/Machine/HostAccess.lean ====
section
/-! DEFINITION. How the host reaches registers (rules R21 to R24) and the listing statements of rules
R100 and R101. -/

namespace Sys2Proof.Machine

/-- The register at an index; 0x05 to 0x07 and 0x1E to 0xFF are unmapped (rule R23). -/
def Reg.ofIndex (idx : BitVec 8) : Option Reg :=
  match idx.toNat with
  | 0x00 => some .cmd
  | 0x01 => some .status
  | 0x02 => some .result
  | 0x03 => some .scratchBase
  | 0x04 => some .errlog
  | 0x08 => some (.op .inDims)
  | 0x09 => some (.op .inCh)
  | 0x0A => some (.op .filtDims)
  | 0x0B => some (.op .outDims)
  | 0x0C => some (.op .outCh)
  | 0x0D => some (.op .stride)
  | 0x0E => some (.op .pad)
  | 0x0F => some (.op .dilation)
  | 0x10 => some (.op .inZp)
  | 0x11 => some (.op .outZp)
  | 0x12 => some (.op .actMin)
  | 0x13 => some (.op .actMax)
  | 0x14 => some (.op .inAddr)
  | 0x15 => some (.op .filtAddr)
  | 0x16 => some (.op .biasAddr)
  | 0x17 => some (.op .outAddr)
  | 0x18 => some (.op .multAddr)
  | 0x19 => some (.op .shiftAddr)
  | 0x1A => some (.op .scratchArg)
  | 0x1B => some (.op .rqAcc)
  | 0x1C => some (.op .rqMult)
  | 0x1D => some (.op .rqShift)
  | _ => none

/-- The index of an operand register (10_state.md section 3). -/
def OpReg.index : OpReg → BitVec 8
  | .inDims => 0x08#8
  | .inCh => 0x09#8
  | .filtDims => 0x0A#8
  | .outDims => 0x0B#8
  | .outCh => 0x0C#8
  | .stride => 0x0D#8
  | .pad => 0x0E#8
  | .dilation => 0x0F#8
  | .inZp => 0x10#8
  | .outZp => 0x11#8
  | .actMin => 0x12#8
  | .actMax => 0x13#8
  | .inAddr => 0x14#8
  | .filtAddr => 0x15#8
  | .biasAddr => 0x16#8
  | .outAddr => 0x17#8
  | .multAddr => 0x18#8
  | .shiftAddr => 0x19#8
  | .scratchArg => 0x1A#8
  | .rqAcc => 0x1B#8
  | .rqMult => 0x1C#8
  | .rqShift => 0x1D#8

/-- The index of a register (10_state.md sections 3 and 6). -/
def Reg.index : Reg → BitVec 8
  | .cmd => 0x00#8
  | .status => 0x01#8
  | .result => 0x02#8
  | .scratchBase => 0x03#8
  | .errlog => 0x04#8
  | .op r => r.index

/-- `x[NAME]`: the register as the host reads it; CMD stores nothing and reads 0 (rule R42). -/
def State.readReg (s : State) : Reg → Word
  | .cmd => 0
  | .status => s.status.word
  | .result => s.result
  | .scratchBase => s.scratchBase
  | .errlog => s.errlog.word
  | .op r => s.regs.get r

/-- `RegRead(idx)` (rule R22): an unmapped index reads 0. -/
def State.regRead (s : State) (idx : BitVec 8) : Word :=
  match Reg.ofIndex idx with
  | none => 0
  | some r => s.readReg r

/-- `RegWrite(idx, v)` of an index other than CMD's (rule R21): an operand register takes the value;
read-only and unmapped indices ignore it. -/
def State.regStore (s : State) (idx : BitVec 8) (v : Word) : State :=
  match Reg.ofIndex idx with
  | some (.op r) => { s with regs := s.regs.set r v }
  | some .cmd => s
  | some .status => s
  | some .result => s
  | some .scratchBase => s
  | some .errlog => s
  | none => s

/-- The register index of a byte offset (`4 × idx`) if the access is an aligned 32-bit one (rule R23). -/
def busIndex (offset : BitVec 10) (bytes : Nat) : Option (BitVec 8) :=
  if bytes = 4 ∧ offset.toNat % 4 = 0 then some (BitVec.ofNat 8 (offset.toNat / 4)) else none

/-- `WR <reg>, <value>` (rule R100). -/
def stmtWr (r : Reg) (v : Word) : HostAction := .regWrite r.index v

/-- `RD <reg>` (rule R100). -/
def stmtRd (r : Reg) : HostAction := .regRead r.index

/-- `CMD <mnemonic>` (rule R100). -/
def stmtCmd (i : Instr) : HostAction := .regWrite Reg.cmd.index (encode i)

/-- `DIMS <reg>, <w>, <h>` (rule R101). -/
def stmtDims (r : OpReg) (w h : Nat) : HostAction := stmtWr (.op r) (BitVec.ofNat 32 (h * 65536 + w))

/-- `REGISTER <addr>` (rule R101). -/
def stmtRegister (a : Word) : List HostAction :=
  [stmtWr (.op .scratchArg) a, stmtCmd .setScratch]

/-- `UNREGISTER` (rule R101). -/
def stmtUnregister : List HostAction := [stmtWr (.op .scratchArg) 0, stmtCmd .setScratch]

end Sys2Proof.Machine
end

