-- ==== Sys2Proof/Machine/Command.lean ====
section
/-! DEFINITION. What each action of the host does: a CMD write runs a command (rules R21, R42, R92), and
reset between or during commands (rules R260, R262). -/

namespace Sys2Proof.Machine

/-- A host write of `v` to CMD (rule R92): an illegal word raises `ERR_ILLEGAL_CMD` (rule R232). -/
def runCommand (v : Word) (s : State) : Host.Outcome State Fault Refusal :=
  match decodeWord v with
  | .ok i => exec i s
  | .error _ => .next (s.raise .illegalCmd none)

/-- `RegWrite(idx, v)` (rule R21). -/
def regWrite (idx : BitVec 8) (v : Word) (s : State) : Host.Outcome State Fault Refusal :=
  if idx = 0#8 then runCommand v s else .next (s.regStore idx v)

/-- What a command was about to write, or why it is undefined, or that it writes no memory. -/
inductive Footprint where
  | none
  | undef (f : Fault)
  | writes (rs : List Range)
  deriving DecidableEq, Repr

/-- The write footprint of a CONVOLVE (rules R71, R72). -/
def State.convFootprint (s : State) (b : Bool) : Footprint :=
  match s.convVerdict b with
  | .err _ _ => .none
  | .undef f => .undef f
  | .go path => .writes ([s.outRange] ++ s.convScratch path)

/-- The write footprint of a PACK (rule R216). -/
def State.packFootprint (s : State) (mode : PackMode) : Footprint :=
  match s.packVerdict mode with
  | .err _ _ => .none
  | .undef f => .undef f
  | .go _ => .writes [s.packRange mode]

/-- The write footprint of a command; only CONVOLVE and PACK write memory (rule R60). -/
def State.footprint (s : State) : Instr → Footprint
  | .nop => .none
  | .planSize => .none
  | .setScratch => .none
  | .convolve => s.convFootprint false
  | .convolveB => s.convFootprint true
  | .requant => .none
  | .requantO => .none
  | .packCin => s.packFootprint .cin
  | .packCfilt => s.packFootprint .cfilt
  | .packPad => s.packFootprint .pad

/-- Every byte of the ranges takes a draw (rules R74, R262). -/
def State.havoc : State → List Range → State
  | s, [] => s
  | s, r :: rs =>
    State.havoc { s with mem := s.mem.writeBytes r.base (anyBytes s.draws r.len), draws := s.draws + r.len } rs

/-- The part of a range that lies in the address space (rule R60). -/
def Range.clip (r : Range) : Range := ⟨min r.base memSize, min r.len (memSize - r.base)⟩

/-- The host takes a declaration back. Memory that comes back from another owner or from a device holds
values nobody states: it takes draws. DESIGN CHOICE (log 7). -/
def State.withdraw (s : State) (r : Region) : State :=
  let s' : State := { s with regions := s.regions.filter (fun q => decide (q ≠ r)) }
  if r ∈ s.regions ∧ r.kind ≠ .scratch then s'.havoc [r.range.clip] else s'

/-- The host may load and store this byte as plain memory (rule R66). DESIGN CHOICE (log 7). -/
def State.hostMayAccess (s : State) (a : Nat) : Bool :=
  !s.touches .notOwned [⟨a, 1⟩] && !s.touches .sideEffects [⟨a, 1⟩]

/-- Reset while the command `v` is executing (rule R262): the registers take their reset values and
every byte of the command's write footprint is `any(u8)`. DESIGN CHOICE (log 8). -/
def resetDuring (v : Word) (s : State) : Host.Outcome State Fault Refusal :=
  match decodeWord v with
  | .error _ => .next s.resetRegs
  | .ok i =>
    match s.footprint i with
    | .none => .next s.resetRegs
    | .undef f => .fault f
    | .writes rs => .next (s.havoc rs).resetRegs

/-- One action of the host. -/
def hostAct (a : HostAction) (s : State) : Host.Outcome State Fault Refusal :=
  match a with
  | .regWrite idx v => regWrite idx v s
  | .regRead idx => .next { s with hostRead := s.regRead idx }
  | .busWrite offset bytes v =>
    match busIndex offset bytes with
    | some idx => regWrite idx v s
    | none => .refused .registerAccessNotWord
  | .busRead offset bytes =>
    match busIndex offset bytes with
    | some idx => .next { s with hostRead := s.regRead idx }
    | none => .refused .registerAccessNotWord
  | .memWrite x b =>
    if s.hostMayAccess x.toNat then .next { s with mem := s.mem.write x.toNat b }
    else .refused .hostAccessNotPlain
  | .memRead x =>
    if s.hostMayAccess x.toNat then
      .next { s with hostRead := (s.mem.read x.toNat).setWidth 32 }
    else .refused .hostAccessNotPlain
  | .declare r => .next { s with regions := r :: s.regions }
  | .withdraw r => .next (s.withdraw r)
  | .reset => .next s.resetRegs
  | .resetDuring v => resetDuring v s

end Sys2Proof.Machine
end

