-- ==== Sys2Proof/Machine/Step.lean ====
section
/-! DEFINITION. One step: the next action of the host (rule R6). The engine runs a command only when
that action writes CMD. -/

namespace Sys2Proof.Machine

/-- The host makes its next access; with none left the block is idle and nothing changes (rules R6, R7).
DESIGN CHOICE (log 5). -/
def step (s : State) : Host.Outcome State Fault Refusal :=
  match s.host with
  | [] => .next s
  | a :: rest => hostAct a { s with host := rest }

/-- The command word `w` becomes the host's next access, a write of CMD (rules R40, R42; log 5). -/
def State.withFetchWord (s : State) (nbits w : Nat) : State :=
  { s with host := .regWrite 0#8 (BitVec.ofNat 32 (w % 2 ^ nbits)) :: s.host }

end Sys2Proof.Machine
end

