-- ==== Sys2Proof/Safety.lean ====
section
/-! DEFINITION. The terms claims use: the invariant of the block's state, when a CONVOLVE or PACK is in
contract, and what a safe run is. -/

namespace Sys2Proof.Machine

/-- The invariant every step keeps: memory in canonical form inside the address space (rule R60); a
region is registered exactly when SCRATCH_BASE is not 0 (rules R46, R156); the error of the last command
is logged (rule R47); an illegal command or a bad shape reports no route (rule R167); the reserved bits
of IN_CH and OUT_CH read 0 (rule R24); the alignment parameters obey rule R11. -/
def State.Inv (s : State) : Prop :=
  s.mem.wf = true ∧ (s.status.sv = true ↔ s.scratchBase ≠ 0)
    ∧ (∀ c, s.status.err = some c → s.errlog.get c = true)
    ∧ (s.status.err = some .illegalCmd ∨ s.status.err = some .shape → s.status.path = none)
    ∧ s.regs.inCh.toNat < 65536 ∧ s.regs.outCh.toNat < 65536 ∧ s.cfg.legal = true

/-- A CONVOLVE passes every check of rule R157 and is in contract (rules R73, R75). -/
def State.convReady (s : State) (b : Bool) : Prop :=
  s.shape.valid = true ∧ s.convOutOfRange b s.route = false ∧ s.convMisaligned b = false
    ∧ (needsScratch s.route = true → s.status.sv = true)
    ∧ s.breach (s.convReads b) [s.outRange] (s.convScratch s.route) = none

/-- A PACK passes every check of rule R216 and is in contract (rules R73, R75). -/
def State.packReady (s : State) (mode : PackMode) : Prop :=
  s.shape.valid = true ∧ (mode = .pad → s.shape.izp ≠ -128) ∧ s.packOutOfRange mode = false
    ∧ s.status.sv = true ∧ s.breach [s.packSource mode] [] [s.packRange mode] = none

/-- A step is safe when the block goes on: no contract of the caller is broken and no access lies
outside the interface. -/
def State.safeStep (s : State) : Prop := ∃ t, step s = .next t

end Sys2Proof.Machine
end

