-- ==== Sys2Proof/Certificates/Slice0/Obligations.lean ====
section
/-! DEFINITION. The statements for the provers. A statement that holds for both forms of CONVOLVE ranges
over the pairs of `convolveForms`, one for the three modes of PACK over `packForms`. -/

open Sys2Proof Sys2Proof.Machine

/-- The two forms of CONVOLVE with the value of their flag `B` (rule R95). -/
def convolveForms : List (Instr × Bool) := [(.convolve, false), (.convolveB, true)]

/-- The three forms of PACK with their mode (rule R96). -/
def packForms : List (Instr × PackMode) := [(.packCin, .cin), (.packCfilt, .cfilt), (.packPad, .pad)]

/-- The commands that call `ValidateShape()` (rule R160). -/
def shapeCommands : List Instr := [.planSize, .convolve, .convolveB, .packCin, .packCfilt, .packPad]

/-- The state after `raise Err(code)` (rule R234), spelled out. -/
def failedState (s : State) (code : ErrCode) (path : Option Path) : State :=
  { s with
    status := { err := some code, sv := s.status.sv, path := path }
    errlog := s.errlog.set code }

/-- The violations of rule R160 in its order, on exact integers. -/
def shapeViolation (p : Shape) : Prop :=
  (p.iw = 0 ∨ p.ih = 0 ∨ p.ic = 0 ∨ p.fw = 0 ∨ p.fh = 0 ∨ p.ow = 0 ∨ p.oh = 0 ∨ p.oc = 0)
    ∨ (p.ic > 65535 ∨ p.oc > 65535)
    ∨ (p.sw = 0 ∨ p.sh = 0)
    ∨ (p.fw > p.iw + 2 * p.pw ∨ p.fh > p.ih + 2 * p.ph)
    ∨ (((p.ow : Int) - 1) * p.sw + p.fw > p.iw + 2 * p.pw
        ∨ ((p.oh : Int) - 1) * p.sh + p.fh > p.ih + 2 * p.ph)
    ∨ (p.izp < -128 ∨ p.izp > 127 ∨ p.ozp < -128 ∨ p.ozp > 127)
    ∨ p.amin > p.amax

/-- `Is1x1Class` (rule R141), spelled out. -/
abbrev unitFilter (p : Shape) : Prop :=
  p.fw = 1 ∧ p.fh = 1 ∧ p.pw = 0 ∧ p.ph = 0 ∧ p.sw = 1 ∧ p.sh = 1

/-- `Route()` (rule R166), spelled out. -/
def spelledRoute (s : State) : Path :=
  let p := s.shape
  if p.fw = 1 ∧ p.fh = 1 ∧ p.pw = 0 ∧ p.ph = 0 ∧ p.sw = 1 ∧ p.sh = 1 then .oneByOne
  else if p.pw = 0 ∧ p.ph = 0 then .windowed
  else if s.cfg.prepad = true ∧ -127 ≤ p.izp then .windowed
  else .fallback

/-- The channel count rounded up to 8 in the 1×1 class and to 16 otherwise (rules R142, R143, R211),
spelled out. -/
def spelledChannels (p : Shape) : Nat :=
  if unitFilter p then 8 * ((p.ic + 7) / 8) else 16 * ((p.ic + 15) / 16)

/-- `PlannedSize()` (rules R142 to R144), spelled out. -/
def spelledSize (s : State) : Nat :=
  let p := s.shape
  let rc := spelledChannels p
  (if unitFilter p then
      (if rc ≠ p.ic then p.iw * p.ih * rc + rc * p.oc else 0)
        + (if p.iw * p.ih < 8 then 0 else 16 * rc)
    else
      (if p.pw = 0 ∧ p.ph = 0 then 0 else (p.iw + 2 * p.pw) * (p.ih + 2 * p.ph) * p.ic)
        + p.fw * p.fh * rc * p.oc + 4 * p.oc)
    + s.cfg.alignSlack

/-- The output length of a PACK mode (rules R218 to R220), spelled out. -/
def spelledLength (p : Shape) : PackMode → Nat
  | .cin => p.ih * p.iw * spelledChannels p
  | .cfilt => p.oc * p.fh * p.fw * spelledChannels p
  | .pad => (p.ih + 2 * p.ph) * (p.iw + 2 * p.pw) * p.ic

/-- The operand registers by their index (10_state.md section 3). -/
def operandRegisters : List (BitVec 8 × (OperandRegs → Word)) :=
  [(0x08#8, OperandRegs.inDims), (0x09#8, OperandRegs.inCh), (0x0A#8, OperandRegs.filtDims),
    (0x0B#8, OperandRegs.outDims), (0x0C#8, OperandRegs.outCh), (0x0D#8, OperandRegs.stride),
    (0x0E#8, OperandRegs.pad), (0x0F#8, OperandRegs.dilation), (0x10#8, OperandRegs.inZp),
    (0x11#8, OperandRegs.outZp), (0x12#8, OperandRegs.actMin), (0x13#8, OperandRegs.actMax)]
    ++ [(0x14#8, OperandRegs.inAddr), (0x15#8, OperandRegs.filtAddr), (0x16#8, OperandRegs.biasAddr),
    (0x17#8, OperandRegs.outAddr), (0x18#8, OperandRegs.multAddr), (0x19#8, OperandRegs.shiftAddr),
    (0x1A#8, OperandRegs.scratchArg), (0x1B#8, OperandRegs.rqAcc), (0x1C#8, OperandRegs.rqMult),
    (0x1D#8, OperandRegs.rqShift)]

/-- One of the ranges shares a byte with memory the host has declared to be of this kind. -/
def meetsKind (s : State) (k : RegionKind) (rs : List Range) : Prop :=
  ∃ q ∈ s.regions, q.kind = k ∧ ∃ a, q.range.has a = true ∧ ∃ r ∈ rs, r.has a = true

/-- Every byte of the range lies in memory the host has handed over as scratch (rule R75). -/
def handedOverInFull (s : State) (r : Range) : Prop :=
  ∀ a, r.has a = true → ∃ q ∈ s.regions, q.kind = .scratch ∧ q.range.has a = true

/-- The requantizer's domain (rule R122), spelled out. -/
def requantDomain (acc m sh : Int) : Prop :=
  (0 ≤ m ∧ m ≤ 2147483647) ∧ (-31 ≤ sh ∧ sh ≤ 31)
    ∧ (-2147483648 ≤ acc * 2 ^ (max sh 0).toNat ∧ acc * 2 ^ (max sh 0).toNat ≤ 2147483647)

/-- `RQ(acc, m, s)` in its domain by the pseudocode of rule R121: `h = MULH(x, m)`, `y = rha(h, rs)`. -/
def requantResult (f : Mulh) (acc m sh : Int) : Int :=
  rha (mulh f (acc * 2 ^ (max sh 0).toNat) m) (max (-sh) 0).toNat

/-- A violation of rule R162: a buffer of a CONVOLVE ends above `2^32`, or the scratch size it needs is
above 32 bits or does not fit above SCRATCH_BASE. -/
def rangeViolation (s : State) (b : Bool) (path : Path) : Prop :=
  s.regs.inAddr.toNat + s.shape.ih * s.shape.iw * s.shape.ic > 2 ^ 32
    ∨ s.regs.filtAddr.toNat + s.shape.oc * s.shape.fh * s.shape.fw * s.shape.ic > 2 ^ 32
    ∨ s.regs.outAddr.toNat + s.shape.oh * s.shape.ow * s.shape.oc > 2 ^ 32
    ∨ (s.regs.multAddr.toNat + 4 * s.shape.oc > 2 ^ 32 ∨ s.regs.shiftAddr.toNat + 4 * s.shape.oc > 2 ^ 32)
    ∨ (b = true ∧ s.regs.biasAddr.toNat + 4 * s.shape.oc > 2 ^ 32)
    ∨ (needsScratch path = true ∧ spelledSize s > 2 ^ 32 - 1)
    ∨ (needsScratch path = true ∧ s.status.sv = true
        ∧ s.scratchBase.toNat + spelledSize s > 2 ^ 32)

/-! ### Encoding and delivery of commands -/

/-- The decoder accepts a word exactly when it is the encoding of the command it answers: no bit of a
word is dropped, none is free (rules R92, R94). -/
def Obligations.DecoderAcceptsExactlyTheEncodings : Prop :=
  ∀ (v : Word) (i : Instr), decodeWord v = .ok i ↔ v = encode i

/-- The ten words of rule R92 as the opcode table writes them, each decoded to its command. -/
def Obligations.TableWordsDecodeToTheirCommands : Prop :=
  decodeWord 0x00000000#32 = .ok .nop ∧ decodeWord 0x00000001#32 = .ok .planSize
    ∧ decodeWord 0x00000002#32 = .ok .setScratch ∧ decodeWord 0x00000003#32 = .ok .convolve
    ∧ decodeWord 0x00000103#32 = .ok .convolveB ∧ decodeWord 0x00000004#32 = .ok .requant
    ∧ decodeWord 0x00000804#32 = .ok .requantO ∧ decodeWord 0x00000005#32 = .ok .packCin
    ∧ decodeWord 0x00000205#32 = .ok .packCfilt ∧ decodeWord 0x00000405#32 = .ok .packPad
    ∧ ∀ i : Instr, i.wf = true

/-- R92: on a host write of `v` to CMD the ten legal words run their commands and every other word
raises `ERR_ILLEGAL_CMD`. -/
def Obligations.CmdWriteRunsTheTenWordsAndRejectsAllOthers : Prop :=
  ∀ (s : State) (v : Word) (rest : List HostAction), s.host = .regWrite 0#8 v :: rest →
    step s =
      let s' : State := { s with host := rest }
      if v = 0x00000000#32 then exec .nop s'
      else if v = 0x00000001#32 then exec .planSize s'
      else if v = 0x00000002#32 then exec .setScratch s'
      else if v = 0x00000003#32 then exec .convolve s'
      else if v = 0x00000103#32 then exec .convolveB s'
      else if v = 0x00000004#32 then exec .requant s'
      else if v = 0x00000804#32 then exec .requantO s'
      else if v = 0x00000005#32 then exec .packCin s'
      else if v = 0x00000205#32 then exec .packCfilt s'
      else if v = 0x00000405#32 then exec .packPad s'
      else .next (failedState s' .illegalCmd none)

/-- R232: an unassigned opcode, a 1 in bits 31:12, a flag bit on a command that does not use it, or PACK
with `M = 3` sets STATUS.ERR to 1, STATUS.PATH to 0 and ERRLOG bit 1, and changes nothing else. -/
def Obligations.IllegalWordChangesOnlyStatusAndErrlog : Prop :=
  ∀ (s : State) (v : Word) (rest : List HostAction), s.host = .regWrite 0#8 v :: rest →
    (bits v 7 0 > 5 ∨ bits v 31 12 ≠ 0 ∨ (bits v 8 8 = 1 ∧ bits v 7 0 ≠ 3)
      ∨ (bits v 10 9 ≠ 0 ∧ bits v 7 0 ≠ 5) ∨ (bits v 11 11 = 1 ∧ bits v 7 0 ≠ 4)
      ∨ (bits v 7 0 = 5 ∧ bits v 10 9 = 3)) →
    step s = .next { s with
      host := rest
      status := { err := some .illegalCmd, sv := s.status.sv, path := none }
      errlog := { s.errlog with illegalCmd := true } }

/-- When the word the host writes to CMD decodes to a command, the step is that command's `exec` on the
state with the write taken off the host's accesses (rules R6, R21, R42); `withFetchWord` makes such a
write the next access. With no access left the step changes nothing: the model's reading of "idle"
(rule R7, log 5). -/
def Obligations.StepRunsTheDecodedCommand : Prop :=
  (∀ (s : State) (v : Word) (i : Instr) (rest : List HostAction),
      s.host = .regWrite 0#8 v :: rest → decodeWord v = .ok i →
      step s = exec i { s with host := rest })
    ∧ (∀ (s : State) (i : Instr), step (s.withFetchWord 32 (encode i).toNat) = exec i s)
    ∧ ∀ s : State, s.host = [] → step s = .next s

/-! ### NOP, SET_SCRATCH, PLAN_SIZE -/

/-- R155: NOP, the word 0x00000000, clears STATUS.ERR and STATUS.PATH and changes nothing else; with no
region registered STATUS then reads 0. -/
def Obligations.NopClearsErrAndPathOnly : Prop :=
  encode .nop = 0x00000000#32 ∧ ∀ s : State,
    exec .nop s = .next { s with status := { err := none, sv := s.status.sv, path := none } }
      ∧ (s.status.sv = false → ∀ t, exec .nop s = .next t → t.regRead 0x01#8 = 0)

/-- R156: SET_SCRATCH, the word 0x00000002, registers the operand whatever its alignment, replacing what
was registered, or un-registers when it is 0; ERR and PATH are cleared and nothing else changes. -/
def Obligations.SetScratchRegistersReplacesOrRemoves : Prop :=
  encode .setScratch = 0x00000002#32 ∧ ∀ s : State,
    (s.regs.scratchArg ≠ 0 → exec .setScratch s = .next { s with
        scratchBase := s.regs.scratchArg
        status := { err := none, sv := true, path := none } })
      ∧ (s.regs.scratchArg = 0 → exec .setScratch s = .next { s with
        scratchBase := 0
        status := { err := none, sv := false, path := none } })

/-- `REGISTER a` and `UNREGISTER` are the two host writes of rule R101, and leave the slot as rule R156
says. -/
def Obligations.RegisterAndUnregisterSetTheSlot : Prop :=
  ∀ (s : State) (a : Word) (rest : List HostAction),
    (s.host = stmtRegister a ++ rest → a ≠ 0 →
      ∃ u t, step s = .next u ∧ step u = .next t ∧ t.scratchBase = a ∧ t.status.sv = true
        ∧ t.host = rest ∧ t.mem = s.mem)
    ∧ (s.host = stmtUnregister ++ rest →
      ∃ u t, step s = .next u ∧ step u = .next t ∧ t.scratchBase = 0 ∧ t.status.sv = false
        ∧ t.host = rest ∧ t.mem = s.mem)

/-- PLAN_SIZE on a valid shape (rules R140 to R144, R166): RESULT is the sum of the size terms of the
shape's class and `ALIGN_SLACK` if that fits 32 bits; else `ERR_RANGE` with RESULT kept. PATH is the route
of the shape in both cases. The class, the rounded channels, the size and the route are spelled out over the
shape's fields, for every shape. -/
def Obligations.PlanSizeReturnsTheSizeTermsOfTheClass : Prop :=
  ∀ s : State,
    s.route = spelledRoute s ∧ s.plannedSize = spelledSize s ∧ s.shape.rc = spelledChannels s.shape
      ∧ (s.shape.is1x1 = true ↔ unitFilter s.shape)
      ∧ (s.shape.valid = true → spelledSize s ≤ 2 ^ 32 - 1 → exec .planSize s = .next { s with
        result := BitVec.ofNat 32 (spelledSize s)
        status := { err := none, sv := s.status.sv, path := some (spelledRoute s) } })
      ∧ (s.shape.valid = true → spelledSize s > 2 ^ 32 - 1 →
        exec .planSize s = .next (failedState s .range (some (spelledRoute s))))

/-- PLAN_SIZE is a pure function of the shape registers (rule R145): two states that agree on them, on
the configuration and on nothing else report the same error, the same route and, on success, the same
size. -/
def Obligations.PlanSizeDependsOnTheShapeRegistersOnly : Prop :=
  ∀ s t : State, s.cfg = t.cfg → s.regs.inDims = t.regs.inDims → s.regs.inCh = t.regs.inCh →
    s.regs.filtDims = t.regs.filtDims → s.regs.outDims = t.regs.outDims →
    s.regs.outCh = t.regs.outCh → s.regs.stride = t.regs.stride → s.regs.pad = t.regs.pad →
    s.regs.inZp = t.regs.inZp → s.regs.outZp = t.regs.outZp → s.regs.actMin = t.regs.actMin →
    s.regs.actMax = t.regs.actMax →
    ∃ s' t', exec .planSize s = .next s' ∧ exec .planSize t = .next t'
      ∧ s'.status.err = t'.status.err ∧ s'.status.path = t'.status.path
      ∧ (s'.status.err = none → s'.result = t'.result)

/-! ### REQUANT and the requantizer -/

/-- REQUANT in the domain (rules R120 to R122): RESULT is `RQ(acc, m, s)`, no error is reported, PATH is
0 and no register but RESULT and STATUS and no memory changes. One draw is set aside whatever the
operands are: the model's own counter (log 3). -/
def Obligations.RequantInDomainReturnsTheRoundedProduct : Prop :=
  ∀ s : State, requantDomain s.regs.rqAcc.toInt s.regs.rqMult.toInt s.regs.rqShift.toInt →
    exec .requant s = .next { s with
      result := BitVec.ofInt 32
        (requantResult s.cfg.mulh s.regs.rqAcc.toInt s.regs.rqMult.toInt s.regs.rqShift.toInt)
      status := { err := none, sv := s.status.sv, path := none }
      draws := s.draws + 1 }

/-- REQUANT outside the domain (rule R122): no error, RESULT is the free word of this draw, whatever the
draw's number is, and nothing else changes (log 3). -/
def Obligations.RequantOutsideDomainReturnsAFreeWord : Prop :=
  ∀ s : State, ¬ requantDomain s.regs.rqAcc.toInt s.regs.rqMult.toInt s.regs.rqShift.toInt →
    exec .requant s = .next { s with
      result := Config.anyWord s.draws
      status := { err := none, sv := s.status.sv, path := none }
      draws := s.draws + 1 }

/-- REQUANT.O with legal output operands (rules R120, R127): RESULT is the sign-extended low byte of the
clamped sum where the requantizer is in its domain and the sum fits 32 bits, the sign-extended free byte
of this draw otherwise (log 3). -/
def Obligations.RequantOReturnsTheClampedByte : Prop :=
  ∀ s : State, (-128 ≤ s.shape.ozp ∧ s.shape.ozp ≤ 127 ∧ s.shape.amin ≤ s.shape.amax) →
    (let y := requantResult s.cfg.mulh s.regs.rqAcc.toInt s.regs.rqMult.toInt s.regs.rqShift.toInt
     let defined := requantDomain s.regs.rqAcc.toInt s.regs.rqMult.toInt s.regs.rqShift.toInt
        ∧ -2147483648 ≤ y + s.shape.ozp ∧ y + s.shape.ozp ≤ 2147483647
     (defined → exec .requantO s = .next { s with
        result := (BitVec.ofInt 8 (min (max (y + s.shape.ozp) s.shape.amin) s.shape.amax)).signExtend 32
        status := { err := none, sv := s.status.sv, path := none }
        draws := s.draws + 1 })
      ∧ (¬ defined → exec .requantO s = .next { s with
        result := (Config.anyByte s.draws).signExtend 32
        status := { err := none, sv := s.status.sv, path := none }
        draws := s.draws + 1 }))

/-- REQUANT.O raises `ERR_SHAPE` for an output zero point outside -128 to 127 or an empty activation
interval, before RESULT is written (rules R120, R236). -/
def Obligations.RequantORejectsBadOutputOperands : Prop :=
  ∀ s : State, (s.shape.ozp < -128 ∨ s.shape.ozp > 127 ∨ s.shape.amin > s.shape.amax) →
    exec .requantO s = .next (failedState s .shape none)

/-- In the domain a zero multiplier or a zero accumulator requantizes to 0 under both settings of
`RQ_MULH_TIE` (laws (a), (b) of R125). -/
def Obligations.RequantOfZeroIsZero : Prop :=
  ∀ (tie : MulhTie) (a sh : Int),
    (requantDomain a 0 sh → requantResult (.tied tie) a 0 sh = 0)
      ∧ (requantDomain 0 a sh → requantResult (.tied tie) 0 a sh = 0)

/-- The requantizer does not decrease in `acc` under both settings of `RQ_MULH_TIE` (law (c) of R125). -/
def Obligations.RequantIsMonotoneInTheAccumulator : Prop :=
  ∀ (tie : MulhTie) (a b m sh : Int), requantDomain a m sh → requantDomain b m sh → a ≤ b →
    requantResult (.tied tie) a m sh ≤ requantResult (.tied tie) b m sh

/-- Without a shift the requantizer is within one half of the exact quotient under both settings of
`RQ_MULH_TIE` (law (d) of R125), both sides multiplied by `2^31`. -/
def Obligations.RequantIsWithinHalfAUnit : Prop :=
  ∀ (tie : MulhTie) (a m : Int), requantDomain a m 0 →
    |requantResult (.tied tie) a m 0 * 2 ^ 31 - a * m| ≤ 2 ^ 30

/-- With ties away from zero the requantizer is odd in `acc` (law (e) of R125). It rests on decision D13
(rule R126). -/
def Obligations.RequantIsOddUnderTiesAway : Prop :=
  ∀ a m sh : Int, requantDomain a m sh → requantDomain (-a) m sh →
    requantResult (.tied .away) (-a) m sh = - requantResult (.tied .away) a m sh

/-- `MULH` by the formulas of rule R123 on all 32-bit operands, saturation included: under `away` the
magnitude plus `2^30` divided by `2^31` with the product's sign, under `up` the floor of the product plus
`2^30` by `2^31`; `away` is one less than `up` at an exact negative tie of the product and equal to it
elsewhere. So the two settings of the requantizer differ by at most 1, and only there (law (f) of R125). The value at a
tie rests on decision D13 (rule R126). -/
def Obligations.TieSettingsDifferOnlyAtNegativeTies : Prop :=
  (∀ x m : Int, -2147483648 ≤ x → x ≤ 2147483647 → -2147483648 ≤ m → m ≤ 2147483647 →
    (let p := x * m
     (x = -2147483648 ∧ m = -2147483648 → ∀ tie, mulh (.tied tie) x m = 2147483647)
      ∧ (¬ (x = -2147483648 ∧ m = -2147483648) →
        mulh (.tied .away) x m = (if p < 0 then -1 else 1) * ((|p| + 2 ^ 30) / 2 ^ 31)
          ∧ mulh (.tied .up) x m = (p + 2 ^ 30) / 2 ^ 31
          ∧ mulh (.tied .away) x m =
            (if p < 0 ∧ p % 2 ^ 31 = 2 ^ 30 then mulh (.tied .up) x m - 1 else mulh (.tied .up) x m))))
    ∧ ∀ a m sh : Int, requantDomain a m sh →
      |requantResult (.tied .away) a m sh - requantResult (.tied .up) a m sh| ≤ 1
        ∧ (requantResult (.tied .away) a m sh ≠ requantResult (.tied .up) a m sh →
            a * 2 ^ (max sh 0).toNat * m < 0 ∧ a * 2 ^ (max sh 0).toNat * m % 2 ^ 31 = 2 ^ 30)

/-- In the domain no intermediate of the requantizer grows under either setting of `RQ_MULH_TIE`, and
whatever function `MULH` is (rule R126) each intermediate fits 32 bits (rule R121). -/
def Obligations.RequantIntermediatesFitTheWord : Prop :=
  ∀ (f : Mulh) (a m sh : Int), requantDomain a m sh →
    (∀ tie, f = .tied tie → |mulh f (a * 2 ^ (max sh 0).toNat) m| ≤ |a * 2 ^ (max sh 0).toNat|)
      ∧ |requantResult f a m sh| ≤ |mulh f (a * 2 ^ (max sh 0).toNat) m|
      ∧ fitsI32 (mulh f (a * 2 ^ (max sh 0).toNat) m) = true
      ∧ fitsI32 (requantResult f a m sh) = true

/-- R124: the rounding right shift by `rs` from 0 to 31 in its definition, in its form on two's
complement bits (`q = h >> rs`, `rem = h[rs-1:0]`), and at `rs = 31`. -/
def Obligations.RoundingShiftMatchesItsBitForm : Prop :=
  ∀ (h : Int) (rs : Nat), fitsI32 h = true → rs ≤ 31 →
    (rs = 0 → rha h rs = h)
      ∧ (rs ≥ 1 → rha h rs = (if h < 0 then -1 else 1) * ((|h| + 2 ^ (rs - 1)) / 2 ^ rs))
      ∧ (rs ≥ 1 → rha h rs =
          h / 2 ^ rs + (if h % 2 ^ rs > 2 ^ (rs - 1) - 1 + (if h < 0 then 1 else 0) then 1 else 0))
      ∧ (rs = 31 → rha h rs = if h ≥ 2 ^ 30 then 1 else if h ≤ -2 ^ 30 then -1 else 0)

/-- R128: clamping twice is clamping once. -/
def Obligations.ClampIsIdempotent : Prop :=
  ∀ v amin amax : Int, amin ≤ amax → clamp (clamp v amin amax) amin amax = clamp v amin amax

/-- With activation bounds inside the signed byte range the output byte read back is the clamped sum and
lies in the activation interval (rule R127); a sum that leaves 32 bits promises no byte. -/
def Obligations.OutputByteLiesInTheActivationInterval : Prop :=
  ∀ y ozp amin amax : Int,
    (-128 ≤ amin → amin ≤ amax → amax ≤ 127 →
      -2147483648 ≤ y + ozp → y + ozp ≤ 2147483647 →
      ∃ b, out8 y ozp amin amax = some b ∧ b.toInt = min (max (y + ozp) amin) amax
        ∧ amin ≤ b.toInt ∧ b.toInt ≤ amax)
    ∧ (¬ (-2147483648 ≤ y + ozp ∧ y + ozp ≤ 2147483647) → out8 y ozp amin amax = none)

/-! ### Checks and contract of CONVOLVE -/

/-- R160: each of the seven shape violations makes PLAN_SIZE, CONVOLVE and PACK fail with `ERR_SHAPE`
before anything else; a shape without one passes `ValidateShape()`, and none of these commands then
reports `ERR_SHAPE`, but for PACK.PAD with `IZP = -128`, whose own check rule R216 gives. -/
def Obligations.ShapeViolationsRaiseErrShape : Prop :=
  ∀ (i : Instr) (s : State), i ∈ shapeCommands →
    (shapeViolation s.shape → exec i s = .next (failedState s .shape none))
      ∧ (¬ shapeViolation s.shape → s.shape.valid = true
        ∧ (¬ (i = .packPad ∧ s.shape.izp = -128) → ∀ t, exec i s = .next t → t.status.err ≠ some .shape))

/-- R162: on a valid shape a CONVOLVE raises `ERR_RANGE`, with the route in PATH, exactly when one of its
buffers or, on a route that needs scratch, its scratch size passes the bound. -/
def Obligations.ConvolveRaisesErrRangeForBuffersThatWrap : Prop :=
  ∀ (i : Instr) (b : Bool) (s : State), (i, b) ∈ convolveForms → s.shape.valid = true →
    (rangeViolation s b s.route → exec i s = .next (failedState s .range (some s.route)))
      ∧ (¬ rangeViolation s b s.route → ∀ t, exec i s = .next t → t.status.err ≠ some .range)

/-- R163: once shape and ranges pass, a CONVOLVE raises `ERR_ALIGN` exactly when MULT_ADDR or SHIFT_ADDR,
or BIAS_ADDR with `B = 1`, is not a multiple of 4. -/
def Obligations.ConvolveRaisesErrAlignForMisalignedArrays : Prop :=
  ∀ (i : Instr) (b : Bool) (s : State), (i, b) ∈ convolveForms → s.shape.valid = true →
    ¬ rangeViolation s b s.route →
    (let misaligned := s.regs.multAddr.toNat % 4 ≠ 0 ∨ s.regs.shiftAddr.toNat % 4 ≠ 0
        ∨ (b = true ∧ s.regs.biasAddr.toNat % 4 ≠ 0)
     (misaligned → exec i s = .next (failedState s .align (some s.route)))
      ∧ (¬ misaligned → ∀ t, exec i s = .next t → t.status.err ≠ some .align))

/-- Once shape, ranges and alignment pass, a CONVOLVE routed to a fast path with no region registered
raises `ERR_NO_SCRATCH` and writes nothing; one routed to Fallback never raises it (rules R165, R168). -/
def Obligations.UnregisteredScratchStopsTheFastPathsOnly : Prop :=
  ∀ (i : Instr) (b : Bool) (s : State), (i, b) ∈ convolveForms → s.shape.valid = true →
    (¬ rangeViolation s b s.route → s.convMisaligned b = false →
      (s.route = .oneByOne ∨ s.route = .windowed) → s.status.sv = false →
      exec i s = .next (failedState s .noScratch (some s.route)))
    ∧ (s.route = .fallback → ∀ t, exec i s = .next t → t.status.err ≠ some .noScratch)

/-- A CONVOLVE that passes its checks and whose output shares a byte with a buffer it reads or with its
scratch footprint, or whose scratch footprint shares one with a buffer it reads, is `undefined` (rule
R73): the model faults. That this fault is the one named when the contract is broken elsewhere too is the
model's choice (log 4). -/
def Obligations.AliasedConvolveFaults : Prop :=
  ∀ (i : Instr) (b : Bool) (s : State) (a : Nat), (i, b) ∈ convolveForms → s.shape.valid = true →
    ¬ rangeViolation s b s.route → s.convMisaligned b = false →
    (needsScratch s.route = true → s.status.sv = true) →
    ((s.outRange.has a = true ∧ ∃ r ∈ s.convReads b ++ s.convScratch s.route, r.has a = true)
      ∨ ((∃ r ∈ s.convScratch s.route, r.has a = true) ∧ ∃ r ∈ s.convReads b, r.has a = true)) →
    exec i s = .fault .aliasedBuffers

/-- A CONVOLVE that passes its checks and aliases nothing, with a byte of one of its buffers or of its
scratch footprint on memory the host has declared not its own, is `undefined` (rule R73, U3), and so is
one with such a byte on memory whose reads have side effects (rule R66, U4): the model faults. Which of
the two is named when both hold is the model's choice (log 4). -/
def Obligations.BuffersOnForeignOrDeviceMemoryFault : Prop :=
  ∀ (i : Instr) (b : Bool) (s : State), (i, b) ∈ convolveForms → s.shape.valid = true →
    ¬ rangeViolation s b s.route → s.convMisaligned b = false →
    (needsScratch s.route = true → s.status.sv = true) →
    unaliased (s.convReads b) ([s.outRange] ++ s.convScratch s.route) = true →
    (let meets := fun k => meetsKind s k (s.convReads b ++ [s.outRange] ++ s.convScratch s.route)
     (meets .notOwned → exec i s = .fault .bufferNotOwned)
      ∧ (¬ meets .notOwned → meets .sideEffects → exec i s = .fault .bufferHasSideEffects))

/-- R75: a CONVOLVE on a fast path that passes its checks, aliases nothing and touches no memory declared
foreign or a device's is `undefined` exactly when some byte of its scratch footprint lies in no memory the
host has handed over as scratch; otherwise it completes. -/
def Obligations.UndersizedScratchFaults : Prop :=
  ∀ (i : Instr) (b : Bool) (s : State), (i, b) ∈ convolveForms → s.shape.valid = true →
    ¬ rangeViolation s b s.route → s.convMisaligned b = false → needsScratch s.route = true →
    s.status.sv = true → unaliased (s.convReads b) [s.outRange, s.scratchRange] = true →
    (∀ k, k ≠ .scratch → ¬ meetsKind s k (s.convReads b ++ [s.outRange, s.scratchRange])) →
    (¬ handedOverInFull s s.scratchRange → exec i s = .fault .scratchNotHandedOver)
      ∧ (handedOverInFull s s.scratchRange → ∃ t, exec i s = .next t ∧ t.status.err = none)

/-! ### What a CONVOLVE computes -/

/-- The value of an output element (rules R170, R69, R70, R121, R122, R127) in one formula over the bytes
of memory: taps outside the input add nothing, the sum is exact, the bias is the little-endian word of
the channel or 0, and no byte is promised where a sum leaves 32 bits or the requantizer its domain. -/
def Obligations.ReferenceElementIsTheSpecsFormula : Prop :=
  ∀ (s : State) (b : Bool) (oy ox oc : Nat),
    (let p := s.shape
     let word := fun a : Nat => (BitVec.ofNat 32 ((s.mem.read a).toNat + 2 ^ 8 * (s.mem.read (a + 1)).toNat
        + 2 ^ 16 * (s.mem.read (a + 2)).toNat + 2 ^ 24 * (s.mem.read (a + 3)).toNat)).toInt
     let acc0 : Int := ∑ fy ∈ Finset.range p.fh, ∑ fx ∈ Finset.range p.fw,
        if p.ph ≤ oy * p.sh + fy ∧ oy * p.sh + fy < p.ph + p.ih
            ∧ p.pw ≤ ox * p.sw + fx ∧ ox * p.sw + fx < p.pw + p.iw then
          ∑ c ∈ Finset.range p.ic,
            ((s.mem.read (s.regs.inAddr.toNat
                + (((oy * p.sh + fy - p.ph) * p.iw + (ox * p.sw + fx - p.pw)) * p.ic + c))).toInt + p.izp)
              * (s.mem.read (s.regs.filtAddr.toNat + (((oc * p.fh + fy) * p.fw + fx) * p.ic + c))).toInt
        else 0
     let acc := acc0 + if b then word (s.regs.biasAddr.toNat + 4 * oc) else 0
     let m := word (s.regs.multAddr.toNat + 4 * oc)
     let sh := word (s.regs.shiftAddr.toNat + 4 * oc)
     let y := requantResult s.cfg.mulh acc m sh
     let defined := (-2147483648 ≤ acc0 ∧ acc0 ≤ 2147483647) ∧ (-2147483648 ≤ acc ∧ acc ≤ 2147483647)
        ∧ requantDomain acc m sh ∧ (-2147483648 ≤ y + p.ozp ∧ y + p.ozp ≤ 2147483647)
     (defined → s.convElem b oy ox oc = some (BitVec.ofInt 8 (min (max (y + p.ozp) p.amin) p.amax)))
      ∧ (¬ defined → s.convElem b oy ox oc = none))

/-- Every path computes the reference accumulator (rules R170, R191, R203, R207): on a valid shape the
accumulator of the routed path, dot product plus offset term over the input or over its padded copy, is
`acc0` of rule R170 for every output element. -/
def Obligations.EveryPathComputesTheReferenceAccumulator : Prop :=
  ∀ (s : State) (oy ox oc : Nat), s.shape.valid = true → oy < s.shape.oh → ox < s.shape.ow →
    oc < s.shape.oc → s.pathAcc0 s.route oy ox oc = s.refAcc0 oy ox oc

/-- A filter volume of at most 65535 keeps the accumulator and the fast paths' partial terms inside 32
bits (rule R171). -/
def Obligations.SmallFilterVolumesCannotOverflow : Prop :=
  ∀ (s : State) (oy ox oc : Nat), s.shape.valid = true → oy < s.shape.oh → ox < s.shape.ow →
    oc < s.shape.oc → s.shape.fw * s.shape.fh * s.shape.ic ≤ 65535 →
    fitsI32 (s.refAcc0 oy ox oc) = true ∧ s.pathTermsFit s.route oy ox oc = true

/-- A CONVOLVE that passes its checks and is in contract completes (rules R71, R157, R170, R175): STATUS
reports the route; every output element whose 32-bit terms fit holds its reference value; no byte
outside the output tensor and the route's scratch footprint changes; no register but STATUS changes. -/
def Obligations.ConvolveWritesTheReferenceOutput : Prop :=
  ∀ (i : Instr) (b : Bool) (s : State), (i, b) ∈ convolveForms → s.convReady b →
    ∃ t, exec i s = .next t
      ∧ t.status = { err := none, sv := s.status.sv, path := some s.route }
      ∧ t.regs = s.regs ∧ t.result = s.result ∧ t.scratchBase = s.scratchBase
      ∧ t.errlog = s.errlog ∧ t.cfg = s.cfg ∧ t.regions = s.regions ∧ t.host = s.host
      ∧ t.hostRead = s.hostRead
      ∧ (∀ oy ox oc v, oy < s.shape.oh → ox < s.shape.ow → oc < s.shape.oc →
          s.pathTermsFit s.route oy ox oc = true → s.convElem b oy ox oc = some v →
          t.mem.read (s.outElemAddr oy ox oc) = v)
      ∧ (∀ a, s.outRange.has a = false →
          (needsScratch s.route = true → s.scratchRange.has a = false) →
          t.mem.read a = s.mem.read a)

/-- A completed CONVOLVE leaves free values where the spec promises none, each from a draw of its own:
an output element whose value is not defined (rule R171) and every byte of the scratch footprint
(rule R74, log 3). -/
def Obligations.ConvolveLeavesFreeValuesWhereNoneIsPromised : Prop :=
  ∀ (i : Instr) (b : Bool) (s : State), (i, b) ∈ convolveForms → s.convReady b →
    ∃ t, exec i s = .next t
      ∧ (∀ oy ox oc, oy < s.shape.oh → ox < s.shape.ow → oc < s.shape.oc →
          s.pathElem b s.route oy ox oc = none →
          t.mem.read (s.outElemAddr oy ox oc)
            = Config.anyByte (s.draws + tensorOffset s.shape.ow s.shape.oc oy ox oc))
      ∧ (needsScratch s.route = true → ∀ k, k < s.plannedSize →
          t.mem.read (s.scratchBase.toNat + k) = Config.anyByte (s.draws + s.shape.outLen + k))
      ∧ s.draws + s.shape.outLen + (if needsScratch s.route then s.plannedSize else 0) ≤ t.draws

/-- R175: on one implementation of `MULH` the value of an output element is a function of the shape
registers, `B`, and the contents of the input, filter, bias, multiplier and shift buffers. Two states with
the same `MULH` that agree on these, wherever the buffers lie, whatever the route, `PREPAD`, the alignment
parameters, SCRATCH_BASE and STATUS are, give
every element whose terms fit on both routes the same byte, or both give it none. -/
def Obligations.OutputDependsOnShapeFlagAndBuffersOnly : Prop :=
  ∀ (b : Bool) (s t : State), s.shape = t.shape → s.cfg.mulh = t.cfg.mulh →
    s.shape.valid = true →
    (∀ k, k < s.shape.inLen →
      s.mem.read (s.regs.inAddr.toNat + k) = t.mem.read (t.regs.inAddr.toNat + k)) →
    (∀ k, k < s.shape.filtLen →
      s.mem.read (s.regs.filtAddr.toNat + k) = t.mem.read (t.regs.filtAddr.toNat + k)) →
    (∀ k, k < s.shape.arrayLen →
      s.mem.read (s.regs.multAddr.toNat + k) = t.mem.read (t.regs.multAddr.toNat + k)) →
    (∀ k, k < s.shape.arrayLen →
      s.mem.read (s.regs.shiftAddr.toNat + k) = t.mem.read (t.regs.shiftAddr.toNat + k)) →
    (b = true → ∀ k, k < s.shape.arrayLen →
      s.mem.read (s.regs.biasAddr.toNat + k) = t.mem.read (t.regs.biasAddr.toNat + k)) →
    ∀ oy ox oc, oy < s.shape.oh → ox < s.shape.ow → oc < s.shape.oc →
      s.pathTermsFit s.route oy ox oc = true → t.pathTermsFit t.route oy ox oc = true →
      s.pathElem b s.route oy ox oc = t.pathElem b t.route oy ox oc

/-! ### PACK -/

/-- PACK.CIN in contract completes (rules R216 to R218): from the aligned destination each pixel's `IC`
bytes, then zeros up to the channel count rounded up to 8 in the 1×1 class and to 16 otherwise; RESULT is the destination; no other byte and no
register but RESULT and STATUS changes. -/
def Obligations.PackCinChannelPadsTheInput : Prop :=
  ∀ s : State, s.packReady .cin →
    ∃ t, exec .packCin s = .next t
      ∧ t = { s with
          mem := t.mem
          result := BitVec.ofNat 32 s.packDst
          status := { err := none, sv := s.status.sv, path := some s.route } }
      ∧ (∀ y x c, y < s.shape.ih → x < s.shape.iw → c < spelledChannels s.shape →
          t.mem.read (s.packDst + ((y * s.shape.iw + x) * spelledChannels s.shape + c)) =
            if c < s.shape.ic then
              s.mem.read (s.regs.inAddr.toNat + ((y * s.shape.iw + x) * s.shape.ic + c))
            else 0)
      ∧ (∀ a, a < s.packDst ∨ s.packDst + spelledLength s.shape .cin ≤ a → t.mem.read a = s.mem.read a)

/-- PACK.CFILT in contract completes (rules R216, R217, R219): from the aligned destination each filter
position's `IC` bytes, then zeros up to the channel count rounded as for PACK.CIN; RESULT is the destination; no other
byte and no register but RESULT and STATUS changes. -/
def Obligations.PackCfiltChannelPadsTheFilter : Prop :=
  ∀ s : State, s.packReady .cfilt →
    ∃ t, exec .packCfilt s = .next t
      ∧ t = { s with
          mem := t.mem
          result := BitVec.ofNat 32 s.packDst
          status := { err := none, sv := s.status.sv, path := some s.route } }
      ∧ (∀ oc fy fx c, oc < s.shape.oc → fy < s.shape.fh → fx < s.shape.fw →
          c < spelledChannels s.shape →
          t.mem.read (s.packDst
              + (((oc * s.shape.fh + fy) * s.shape.fw + fx) * spelledChannels s.shape + c)) =
            if c < s.shape.ic then
              s.mem.read (s.regs.filtAddr.toNat
                + (((oc * s.shape.fh + fy) * s.shape.fw + fx) * s.shape.ic + c))
            else 0)
      ∧ (∀ a, a < s.packDst ∨ s.packDst + spelledLength s.shape .cfilt ≤ a → t.mem.read a = s.mem.read a)

/-- PACK.PAD in contract completes (rules R213, R216, R217, R220): from the aligned destination the input
with a border of `-IZP` bytes, `PW` columns and `PH` rows on each side; RESULT is the destination; no
other byte and no register but RESULT and STATUS changes. -/
def Obligations.PackPadWritesTheBorderedInput : Prop :=
  ∀ s : State, s.packReady .pad →
    ∃ t, exec .packPad s = .next t
      ∧ t = { s with
          mem := t.mem
          result := BitVec.ofNat 32 s.packDst
          status := { err := none, sv := s.status.sv, path := some s.route } }
      ∧ (∀ y x c, y < s.shape.ih + 2 * s.shape.ph → x < s.shape.iw + 2 * s.shape.pw →
          c < s.shape.ic →
          t.mem.read (s.packDst + ((y * (s.shape.iw + 2 * s.shape.pw) + x) * s.shape.ic + c)) =
            if s.shape.ph ≤ y ∧ y < s.shape.ph + s.shape.ih
                ∧ s.shape.pw ≤ x ∧ x < s.shape.pw + s.shape.iw then
              s.mem.read (s.regs.inAddr.toNat
                + (((y - s.shape.ph) * s.shape.iw + (x - s.shape.pw)) * s.shape.ic + c))
            else BitVec.ofInt 8 (-s.shape.izp))
      ∧ (∀ a, a < s.packDst ∨ s.packDst + spelledLength s.shape .pad ≤ a → t.mem.read a = s.mem.read a)

/-- PACK's errors in the order of rule R216: the fill byte that is no signed byte, a buffer that wraps or
a length above 32 bits, and no region registered; a bad shape is in `ShapeViolationsRaiseErrShape`. A
planned size above 32 bits also stops a PACK (rule R149); that it does although rule R216 does not test it is
the model's choice (log 15). -/
def Obligations.PackRaisesItsErrorsInOrder : Prop :=
  ∀ (i : Instr) (mode : PackMode) (s : State), (i, mode) ∈ packForms → s.shape.valid = true →
    (let fillBad := mode = .pad ∧ s.shape.izp = -128
     let src := match mode with
       | .cin => s.regs.inAddr.toNat + s.shape.ih * s.shape.iw * s.shape.ic
       | .cfilt => s.regs.filtAddr.toNat + s.shape.oc * s.shape.fh * s.shape.fw * s.shape.ic
       | .pad => s.regs.inAddr.toNat + s.shape.ih * s.shape.iw * s.shape.ic
     let wraps := src > 2 ^ 32 ∨ spelledLength s.shape mode > 2 ^ 32 - 1
        ∨ spelledSize s > 2 ^ 32 - 1
        ∨ (s.status.sv = true ∧ s.packDst + spelledLength s.shape mode > 2 ^ 32)
     (fillBad → exec i s = .next (failedState s .shape none))
      ∧ (¬ fillBad → wraps → exec i s = .next (failedState s .range (some s.route)))
      ∧ (¬ fillBad → ¬ wraps → s.status.sv = false →
          exec i s = .next (failedState s .noScratch (some s.route))))

/-- A PACK that passes its checks is `undefined` when its destination shares a byte with its source
(rule R73), when a byte of either lies on memory the host has declared not its own (rule R73, U3) or on
memory whose reads have side effects (rule R66, U4), and when a byte of its destination was not handed over
as scratch (rule R75): the model faults. With none of these it completes. Which fault is named when several
hold is the model's choice (log 4). -/
def Obligations.PackContractBreachesFault : Prop :=
  ∀ (i : Instr) (mode : PackMode) (s : State), (i, mode) ∈ packForms → s.shape.valid = true →
    (mode = .pad → s.shape.izp ≠ -128) → s.packOutOfRange mode = false → s.status.sv = true →
    (let shared := ∃ a, (s.packSource mode).has a = true ∧ (s.packRange mode).has a = true
     let meets := fun k => meetsKind s k [s.packSource mode, s.packRange mode]
     (shared → exec i s = .fault .aliasedBuffers)
      ∧ (¬ shared → meets .notOwned → exec i s = .fault .bufferNotOwned)
      ∧ (¬ shared → ¬ meets .notOwned → meets .sideEffects → exec i s = .fault .bufferHasSideEffects)
      ∧ (¬ shared → ¬ meets .notOwned → ¬ meets .sideEffects →
          (¬ handedOverInFull s (s.packRange mode) → exec i s = .fault .scratchNotHandedOver)
            ∧ (handedOverInFull s (s.packRange mode) → ∃ t, exec i s = .next t ∧ t.status.err = none)))

/-- The destination of a PACK is the first multiple of `ALIGN_BOUNDARY` at or above SCRATCH_BASE
(rules R212, R216, R217). -/
def Obligations.PackDestinationIsTheAlignedScratchBase : Prop :=
  ∀ s : State, s.packDst % s.cfg.alignBoundary = 0 ∧ s.scratchBase.toNat ≤ s.packDst
    ∧ s.packDst - s.scratchBase.toNat ≤ s.cfg.alignBoundary - 1

/-- Where the planner reserves the copy a PACK makes, the copy ends inside the planned region
(rules R11, R217). -/
def Obligations.PlannedRegionHoldsThePackedCopy : Prop :=
  ∀ (s : State) (mode : PackMode), s.shape.valid = true → s.cfg.legal = true →
    ((unitFilter s.shape ∧ spelledChannels s.shape ≠ s.shape.ic ∧ mode ≠ .pad)
      ∨ (¬ unitFilter s.shape ∧ mode = .cfilt)
      ∨ (¬ (s.shape.pw = 0 ∧ s.shape.ph = 0) ∧ mode = .pad)) →
    s.packDst + spelledLength s.shape mode ≤ s.scratchBase.toNat + spelledSize s

/-- Zero lanes contribute nothing (rules R194, R215): in the 1×1 class the dot product of a padded pixel
and a padded filter vector, over the lanes of the two PACK outputs (the channels rounded up to 8), is the
dot product over the `IC` channels. -/
def Obligations.ChannelPaddingChangesNoDotProduct : Prop :=
  ∀ (s : State) (y x oc : Nat), s.shape.valid = true → unitFilter s.shape →
    y < s.shape.ih → x < s.shape.iw → oc < s.shape.oc →
    (let lanes := 8 * ((s.shape.ic + 7) / 8)
     ∑ c ∈ Finset.range lanes, (s.packByte .cin ((y * s.shape.iw + x) * lanes + c)).toInt
        * (s.packByte .cfilt (oc * lanes + c)).toInt
      = ∑ c ∈ Finset.range s.shape.ic, s.inElem y x c * s.filtElem oc 0 0 c)

/-! ### Host access to registers and memory -/

/-- The operand registers (10_state.md section 3): a host write at an index changes the register of that
index alone, and a read there gives it back with its reserved bits zero: bits 31:16 of IN_CH and OUT_CH
(rules R21, R22, R24); every other index reads as before. The shape of a command is read from the fields of
rules R25 to R32: `W[15:0]`, `H[31:16]`, `C[15:0]`, and the signed words of the zero points and bounds. -/
def Obligations.OperandRegisterWriteThenRead : Prop :=
  (∀ (s : State) (idx : BitVec 8) (field : OperandRegs → Word) (v : Word) (rest : List HostAction),
    (idx, field) ∈ operandRegisters → s.host = .regWrite idx v :: rest →
    ∃ t, step s = .next t ∧ t = { s with regs := t.regs, host := rest }
      ∧ field t.regs = (if idx = 0x09#8 ∨ idx = 0x0C#8 then v &&& 0x0000FFFF#32 else v)
      ∧ t.regRead idx = field t.regs
      ∧ (∀ idx' field', (idx', field') ∈ operandRegisters → idx' ≠ idx → field' t.regs = field' s.regs)
      ∧ ∀ j : BitVec 8, j ≠ idx → t.regRead j = s.regRead j)
  ∧ ∀ s : State,
    s.shape = {
      iw := s.regs.inDims.toNat % 65536, ih := s.regs.inDims.toNat / 65536
      ic := s.regs.inCh.toNat % 65536
      fw := s.regs.filtDims.toNat % 65536, fh := s.regs.filtDims.toNat / 65536
      ow := s.regs.outDims.toNat % 65536, oh := s.regs.outDims.toNat / 65536
      oc := s.regs.outCh.toNat % 65536
      sw := s.regs.stride.toNat % 65536, sh := s.regs.stride.toNat / 65536
      pw := s.regs.pad.toNat % 65536, ph := s.regs.pad.toNat / 65536
      izp := s.regs.inZp.toInt, ozp := s.regs.outZp.toInt
      amin := s.regs.actMin.toInt, amax := s.regs.actMax.toInt }

/-- A host write of STATUS, RESULT, SCRATCH_BASE, ERRLOG or of an unmapped index is ignored, and an
unmapped index reads 0 (rules R21, R22, R23). -/
def Obligations.ReadOnlyAndUnmappedWritesAreIgnored : Prop :=
  ∀ (s : State) (idx : BitVec 8) (v : Word) (rest : List HostAction),
    s.host = .regWrite idx v :: rest →
    ((1 ≤ idx.toNat ∧ idx.toNat ≤ 7) ∨ 0x1E ≤ idx.toNat) →
    step s = .next { s with host := rest }
      ∧ ((5 ≤ idx.toNat ∧ idx.toNat ≤ 7) ∨ 0x1E ≤ idx.toNat → s.regRead idx = 0)

/-- R22: a register read returns the register, 0 for CMD and for an unmapped index, and changes nothing
but the value returned to the host. -/
def Obligations.RegisterReadChangesNothing : Prop :=
  ∀ (s : State) (idx : BitVec 8) (rest : List HostAction), s.host = .regRead idx :: rest →
    ∃ t, step s = .next t ∧ t = { s with host := rest, hostRead := t.hostRead }
      ∧ (∀ field, (idx, field) ∈ operandRegisters → t.hostRead = field s.regs)
      ∧ (idx = 0x01#8 → t.hostRead = s.status.word) ∧ (idx = 0x02#8 → t.hostRead = s.result)
      ∧ (idx = 0x03#8 → t.hostRead = s.scratchBase) ∧ (idx = 0x04#8 → t.hostRead = s.errlog.word)
      ∧ (idx = 0x00#8 → t.hostRead = 0)
      ∧ ((5 ≤ idx.toNat ∧ idx.toNat ≤ 7) ∨ 0x1E ≤ idx.toNat → t.hostRead = 0)

/-- The bits of STATUS as the host reads it (rules R24, R43, R231): `ERR[3:0]` is the code, 0 to 5;
`SV` is bit 4; `PATH[6:5]` is the route's number; bits 31:7 are 0. -/
def Obligations.StatusWordHoldsErrSvAndPath : Prop :=
  ∀ s : State,
    (s.regRead 0x01#8).toNat % 16 = (match s.status.err with
        | none => 0
        | some .illegalCmd => 1
        | some .noScratch => 2
        | some .shape => 3
        | some .align => 4
        | some .range => 5)
      ∧ (s.regRead 0x01#8).getLsbD 4 = s.status.sv
      ∧ (s.regRead 0x01#8).toNat / 32 % 4 = (match s.status.path with
        | none => 0
        | some .oneByOne => 1
        | some .windowed => 2
        | some .fallback => 3)
      ∧ (s.regRead 0x01#8).toNat / 128 = 0

/-- A byte-addressed access of the register window is a register access at `offset / 4` when it is an
aligned 32-bit one, and is refused otherwise (rule R23). -/
def Obligations.NarrowRegisterAccessIsRefused : Prop :=
  ∀ (s : State) (offset : BitVec 10) (n : Nat) (v : Word) (rest : List HostAction),
    (s.host = .busWrite offset n v :: rest →
      (n = 4 ∧ offset.toNat % 4 = 0 →
        step s = step { s with host := .regWrite (BitVec.ofNat 8 (offset.toNat / 4)) v :: rest })
      ∧ (¬ (n = 4 ∧ offset.toNat % 4 = 0) → step s = .refused .registerAccessNotWord))
    ∧ (s.host = .busRead offset n :: rest →
      (n = 4 ∧ offset.toNat % 4 = 0 →
        step s = step { s with host := .regRead (BitVec.ofNat 8 (offset.toNat / 4)) :: rest })
      ∧ (¬ (n = 4 ∧ offset.toNat % 4 = 0) → step s = .refused .registerAccessNotWord))

/-- Plain memory returns the last value written to it (rule R66): a byte the host stores is the byte its
next load of that address returns, zero-extended, and no other byte changes. A byte the host has
declared not its own or a device's is refused (log 7). -/
def Obligations.HostStoreThenLoadReturnsTheByte : Prop :=
  ∀ (s : State) (a : Word) (v : Byte) (rest : List HostAction),
    s.host = .memWrite a v :: .memRead a :: rest →
    (let foreign := ∃ q ∈ s.regions, q.kind ≠ .scratch ∧ q.range.has a.toNat = true
     (foreign → step s = .refused .hostAccessNotPlain)
      ∧ (¬ foreign → ∃ u t, step s = .next u ∧ step u = .next t
          ∧ u = { s with host := .memRead a :: rest, mem := u.mem }
          ∧ t = { u with host := rest, hostRead := v.setWidth 32 }
          ∧ ∀ x, x ≠ a.toNat → t.mem.read x = s.mem.read x))

/-- 32-bit items are little-endian (rule R62): four bytes stored from the lowest, bits 7:0 first, are
read by the engine as the word, and no other byte changes. -/
def Obligations.WordsAreLittleEndian : Prop :=
  ∀ (m : Memory) (a : Nat) (w : Word),
    (let m' := (((m.write a (w.extractLsb' 0 8)).write (a + 1) (w.extractLsb' 8 8)).write (a + 2)
        (w.extractLsb' 16 8)).write (a + 3) (w.extractLsb' 24 8)
     m'.s32 a = w.toInt
      ∧ m'.read32 a = BitVec.ofNat 32 ((m'.read a).toNat + 2 ^ 8 * (m'.read (a + 1)).toNat
          + 2 ^ 16 * (m'.read (a + 2)).toNat + 2 ^ 24 * (m'.read (a + 3)).toNat)
      ∧ ∀ x, x < a ∨ a + 4 ≤ x → m'.read x = m.read x)

/-! ### Whole-machine rules -/

/-- R234: after a command that fails, the state is the state before it but for STATUS.ERR, STATUS.PATH
and one ERRLOG bit; PATH is 0 for an illegal command or a bad shape and the route otherwise. -/
def Obligations.FailedCommandChangesOnlyStatusAndErrlog : Prop :=
  ∀ (v : Word) (s t : State) (c : ErrCode), runCommand v s = .next t → t.status.err = some c →
    t = failedState s c (if c = .illegalCmd ∨ c = .shape then none else some s.route)

/-- No command writes an operand register, and only SET_SCRATCH writes SV and SCRATCH_BASE (rules R36,
R43, R46); nor does a command change the configuration or what belongs to the host. -/
def Obligations.OnlySetScratchWritesTheRegistrationSlot : Prop :=
  ∀ (i : Instr) (s t : State), exec i s = .next t →
    t.regs = s.regs ∧ t.cfg = s.cfg ∧ t.regions = s.regions ∧ t.host = s.host
      ∧ t.hostRead = s.hostRead
      ∧ (i ≠ .setScratch → t.status.sv = s.status.sv ∧ t.scratchBase = s.scratchBase)

/-- NOP, SET_SCRATCH and CONVOLVE leave RESULT (rule R45); NOP, PLAN_SIZE, SET_SCRATCH and REQUANT write no
memory and read none: on any other memory they end in the same state but for it (rule R60). -/
def Obligations.ResultAndMemoryAreWrittenOnlyByTheirCommands : Prop :=
  ∀ (i : Instr) (s t : State), exec i s = .next t →
    (i ∈ [Instr.nop, .setScratch, .convolve, .convolveB] → t.result = s.result)
      ∧ (i ∈ [Instr.nop, .planSize, .setScratch, .requant, .requantO] →
        t.mem = s.mem ∧ ∀ m : Memory, exec i { s with mem := m } = .next { t with mem := m })

/-- R47: ERRLOG bit `n` is set when a command ends with error code `n`, no step but a reset clears a bit,
and bit 0 and bits 31:6 read 0. -/
def Obligations.ErrlogBitsAreStickyUntilReset : Prop :=
  (∀ (v : Word) (s t : State) (c : ErrCode), runCommand v s = .next t → t.status.err = some c →
      (t.regRead 0x04#8).getLsbD c.code = true)
    ∧ (∀ (s t : State) (n : Nat), step s = .next t →
        (∀ rest, s.host ≠ .reset :: rest) → (∀ v rest, s.host ≠ .resetDuring v :: rest) →
        (s.regRead 0x04#8).getLsbD n = true → (t.regRead 0x04#8).getLsbD n = true)
    ∧ ∀ (s : State) (n : Nat), n = 0 ∨ 6 ≤ n → (s.regRead 0x04#8).getLsbD n = false

/-- After reset every register index reads 0; a reset between commands does that to any state and
touches no byte of memory (rules R55, R260). -/
def Obligations.ResetZeroesEveryRegisterAndKeepsMemory : Prop :=
  (∀ idx : BitVec 8, State.reset.regRead idx = 0)
    ∧ ∀ (s : State) (rest : List HostAction), s.host = .reset :: rest →
      ∃ t, step s = .next t ∧ t.host = rest ∧ t.mem = s.mem ∧ t.cfg = s.cfg
        ∧ ∀ idx : BitVec 8, t.regRead idx = 0

/-- On the reset values a PLAN_SIZE, CONVOLVE or PACK fails with `ERR_SHAPE` and does nothing else, and a
REQUANT completes, under both settings of `RQ_MULH_TIE` with 0, whatever memory holds (rules R55, R265). -/
def Obligations.CommandsOnTheResetValues : Prop :=
  ∀ s : State,
    (∀ i ∈ shapeCommands, exec i s.resetRegs = .next (failedState s.resetRegs .shape none))
      ∧ ∃ t, exec .requant s.resetRegs = .next t ∧ t.status.err = none ∧ t.mem = s.mem
        ∧ ∀ tie, s.cfg.mulh = .tied tie → t.result = 0

/-- A reset while a command executes resets every register; only bytes of that command's write footprint
may change, and in it every byte is a draw of its own (rule R262). That the model has a reset in mid-command
at all is log 8's choice, and the number of each draw log 3's. -/
def Obligations.MidCommandResetLosesOnlyTheFootprint : Prop :=
  ∀ (s t : State) (i : Instr) (rest : List HostAction),
    s.host = .resetDuring (encode i) :: rest → step s = .next t →
    (∀ idx : BitVec 8, t.regRead idx = 0)
      ∧ (∀ b, (i, b) ∈ convolveForms → s.convReady b →
          (∀ a, s.outRange.has a = false →
            (needsScratch s.route = true → s.scratchRange.has a = false) →
            t.mem.read a = s.mem.read a)
          ∧ (∀ k, k < s.shape.outLen →
            t.mem.read (s.regs.outAddr.toNat + k) = Config.anyByte (s.draws + k))
          ∧ (needsScratch s.route = true → ∀ k, k < s.plannedSize →
            t.mem.read (s.scratchBase.toNat + k)
              = Config.anyByte (s.draws + s.shape.outLen + k)))
      ∧ (∀ mode, (i, mode) ∈ packForms → s.packReady mode →
          (∀ a, (s.packRange mode).has a = false → t.mem.read a = s.mem.read a)
          ∧ ∀ k, k < s.shape.packLen mode →
            t.mem.read (s.packDst + k) = Config.anyByte (s.draws + k))
      ∧ (i ∈ [Instr.nop, .planSize, .setScratch, .requant, .requantO] → t.mem = s.mem)

/-- The invariant holds at reset. -/
def Obligations.InvariantHoldsAtReset : Prop := State.reset.Inv

/-- Every step keeps the invariant: the canonical form of memory inside the address space, the slot
registered exactly when SCRATCH_BASE is not 0, the last error logged, no route after a bad shape or an
illegal command, the reserved bits of IN_CH and OUT_CH 0, the alignment parameters legal. -/
def Obligations.EveryStepKeepsTheInvariant : Prop :=
  ∀ s t : State, s.Inv → step s = .next t → t.Inv
end

