-- ==== Sys2Proof/Laws/Contract.lean ====
section
/-! SUPPORT. What the caller's contract says, byte by byte (rules R61, R66, R73, R75). -/

namespace Sys2Proof.Machine

theorem has_iff (r : Range) (a : Nat) : r.has a = true ↔ r.base ≤ a ∧ a < r.base + r.len := by
  unfold Range.has; exact decide_eq_true_iff

theorem has_eq_false_iff (r : Range) (a : Nat) : r.has a = false ↔ a < r.base ∨ r.base + r.len ≤ a := by
  rw [← Bool.not_eq_true, has_iff]; omega

theorem fits_iff (r : Range) : r.fits = true ↔ r.base + r.len ≤ 2 ^ 32 := by
  unfold Range.fits; exact decide_eq_true_iff

theorem fits_eq_false_iff (r : Range) : r.fits = false ↔ r.base + r.len > 2 ^ 32 := by
  rw [← Bool.not_eq_true, fits_iff]; omega

/-- Disjoint ranges share no byte (rule R73). -/
theorem disjoint_iff (r q : Range) :
    r.disjoint q = true ↔ ∀ a, r.has a = true → q.has a = false := by
  simp only [Range.disjoint, decide_eq_true_eq, has_iff, has_eq_false_iff]
  constructor
  · intro h a ha; omega
  · intro h
    by_contra hc
    have := h (max r.base q.base) (by omega)
    omega

theorem disjoint_eq_false_iff (r q : Range) :
    r.disjoint q = false ↔ ∃ a, r.has a = true ∧ q.has a = true := by
  rw [← Bool.not_eq_true, disjoint_iff]
  push Not
  simp only [ne_eq, Bool.not_eq_false]

/-- A regions' list covers a range exactly when every byte of the range lies in one of them (rule R75),
given a turn for each region. -/
theorem coveredBy_sound (rs : List Range) (k lo hi : Nat) (h : coveredBy rs k lo hi = true) :
    ∀ a, lo ≤ a → a < hi → ∃ r ∈ rs, r.has a = true := by
  induction k generalizing lo with
  | zero => intro a h1 h2; simp [coveredBy] at h; omega
  | succ k ih =>
    intro a h1 h2
    simp only [coveredBy, Bool.or_eq_true, decide_eq_true_eq] at h
    rcases h with h | h
    · omega
    · cases hf : rs.find? (fun r => r.has lo) with
      | none => rw [hf] at h; cases h
      | some r =>
        rw [hf] at h
        have hr : r.has lo = true := by simpa using List.find?_some hf
        by_cases hc : a < r.base + r.len
        · exact ⟨r, List.mem_of_find?_eq_some hf, (has_iff _ _).mpr ⟨by have := (has_iff _ _).mp hr; omega, hc⟩⟩
        · exact ih _ h a (by omega) h2

/-- The converse: the regions that end above the point reached so far are fewer at each turn. -/
theorem coveredBy_complete (rs : List Range) (k lo hi : Nat)
    (hk : (rs.filter (fun r => decide (lo < r.base + r.len))).length ≤ k)
    (h : ∀ a, lo ≤ a → a < hi → ∃ r ∈ rs, r.has a = true) : coveredBy rs k lo hi = true := by
  induction k generalizing lo with
  | zero =>
    simp only [coveredBy, decide_eq_true_eq]
    by_contra hc
    obtain ⟨r, hr, ha⟩ := h lo le_rfl (by omega)
    have : r ∈ rs.filter (fun r => decide (lo < r.base + r.len)) :=
      List.mem_filter.mpr ⟨hr, by simpa using ((has_iff _ _).mp ha).2⟩
    rw [List.length_eq_zero_iff.mp (Nat.le_zero.mp hk)] at this
    cases this
  | succ k ih =>
    simp only [coveredBy, Bool.or_eq_true, decide_eq_true_eq]
    by_cases hc : hi ≤ lo
    · exact .inl hc
    right
    obtain ⟨r, hr, ha⟩ := h lo le_rfl (by omega)
    cases hf : rs.find? (fun r => r.has lo) with
    | none => exact absurd ha (by simpa using List.find?_eq_none.mp hf r hr)
    | some q =>
      have hq : q.has lo = true := by simpa using List.find?_some hf
      have hq' := (has_iff _ _).mp hq
      refine ih (q.base + q.len) ?_ (fun a h1 h2 => h a (by omega) h2)
      have hlt : (rs.filter (fun r => decide (q.base + q.len < r.base + r.len))).length
          < (rs.filter (fun r => decide (lo < r.base + r.len))).length := by
        have hsub : rs.filter (fun r => decide (q.base + q.len < r.base + r.len))
            = (rs.filter (fun r => decide (lo < r.base + r.len))).filter
                (fun r => decide (q.base + q.len < r.base + r.len)) := by
          rw [List.filter_filter]
          congr 1
          funext r
          by_cases h1 : q.base + q.len < r.base + r.len
          · simp [h1, show lo < r.base + r.len by omega]
          · simp [h1]
        rw [hsub]
        refine List.length_filter_lt_length_iff_exists.mpr ⟨q, ?_, by simp⟩
        exact List.mem_filter.mpr ⟨List.mem_of_find?_eq_some hf, by simpa using hq'.2⟩
      omega

/-- Memory handed over as scratch contains the range exactly when it contains each of its bytes
(rule R75). -/
theorem handedOver_iff (s : State) (r : Range) :
    s.handedOver r = true ↔ ∀ a, r.has a = true → ∃ q ∈ s.regionsOf .scratch, q.has a = true := by
  unfold State.handedOver
  constructor
  · intro h a ha
    rw [has_iff] at ha
    exact coveredBy_sound _ _ _ _ h a ha.1 ha.2
  · intro h
    exact coveredBy_complete _ _ _ _ (List.length_filter_le _ _)
      (fun a h1 h2 => h a ((has_iff _ _).mpr ⟨h1, h2⟩))

/-- The same, over the host's declarations themselves (rule R75). -/
theorem handedOver_iff_region (s : State) (r : Range) :
    s.handedOver r = true
      ↔ ∀ a, r.has a = true → ∃ q ∈ s.regions, q.kind = .scratch ∧ q.range.has a = true := by
  rw [handedOver_iff]
  simp [State.regionsOf, and_assoc]

/-- Some range touches memory of a kind exactly when some byte of it lies in such a region. -/
theorem touches_iff (s : State) (k : RegionKind) (rs : List Range) :
    s.touches k rs = true ↔ ∃ q ∈ s.regions, q.kind = k
      ∧ ∃ a, q.range.has a = true ∧ ∃ r ∈ rs, r.has a = true := by
  unfold State.touches State.regionsOf
  simp only [List.any_eq_true, List.mem_map, List.mem_filter, decide_eq_true_eq, Bool.not_eq_true',
    disjoint_eq_false_iff]
  constructor
  · rintro ⟨_, ⟨q, ⟨hq, hk⟩, rfl⟩, r, hr, a, h1, h2⟩
    exact ⟨q, hq, hk, a, h2, r, hr, h1⟩
  · rintro ⟨q, hq, hk, a, h2, r, hr, h1⟩
    exact ⟨_, ⟨q, ⟨hq, hk⟩, rfl⟩, r, hr, a, h1, h2⟩

/-- What holds of a command whose contract lacks nothing (rules R66, R73, R75). -/
theorem breach_eq_none {s : State} {reads writes scratch : List Range}
    (h : s.breach reads writes scratch = none) :
    unaliased reads (writes ++ scratch) = true
      ∧ s.touches .notOwned (reads ++ writes ++ scratch) = false
      ∧ s.touches .sideEffects (reads ++ writes ++ scratch) = false
      ∧ ∀ r ∈ scratch, s.handedOver r = true := by
  unfold State.breach at h
  split at h
  · cases h
  split at h
  · cases h
  split at h
  · cases h
  split at h
  · cases h
  simp_all

end Sys2Proof.Machine
end

