-- ==== Sys2Proof/Laws/Memory.lean ====
section
/-! SUPPORT. The laws of memory: read after write, and that every memory operation keeps the canonical
form (rules R60, R66). -/

namespace Sys2Proof.Machine

theorem read_insert (m : Memory) (a x : Nat) (b : Byte) (hm : ∀ c ∈ m, c.1 ≠ a) :
    (Memory.insert m a b).read x = if x = a then b else m.read x := by
  induction m with
  | nil => simp [Memory.insert, Memory.read, eq_comm]
  | cons c rest ih =>
    obtain ⟨a', b'⟩ := c
    have hne : a' ≠ a := hm (a', b') (by simp)
    have ih := ih (fun c hc => hm c (by simp [hc]))
    unfold Memory.insert
    split
    · by_cases h : x = a
      · subst h; simp [Memory.read]
      · simp [Memory.read, h, Ne.symm h]
    · simp only [Memory.read, ih]
      by_cases h : a' = x
      · subst h; simp [hne]
      · simp [h]

theorem read_filter (m : Memory) (a x : Nat) :
    (Memory.read (m.filter (fun c => c.1 != a)) x) = if x = a then unlistedByte else m.read x := by
  induction m with
  | nil => simp [Memory.read]
  | cons c rest ih =>
    obtain ⟨a', b'⟩ := c
    by_cases h : a' = a
    · subst h
      simp only [List.filter_cons, bne_self_eq_false, Bool.false_eq_true, if_false, ih, Memory.read]
      by_cases hx : x = a'
      · simp [hx]
      · simp [hx, Ne.symm hx]
    · have hb : (a' != a) = true := by simpa using h
      simp only [List.filter_cons, hb, if_true, Memory.read, ih]
      by_cases hx : a' = x
      · subst hx; simp [h]
      · simp [hx]

/-- A read after a write gives the byte written at its address and the old byte elsewhere (rule R66). -/
theorem read_write (m : Memory) (a x : Nat) (b : Byte) :
    (m.write a b).read x = if x = a then b else m.read x := by
  unfold Memory.write
  by_cases h : b = unlistedByte
  · simp [h, read_filter]
  · simp only [h, if_false]
    rw [read_insert _ _ _ _ (fun c hc => by simpa using (List.mem_filter.mp hc).2), read_filter]
    by_cases hx : x = a <;> simp [hx]

/-- Reads after a write of consecutive bytes. -/
theorem read_writeBytes (bs : List Byte) (m : Memory) (a x : Nat) :
    (m.writeBytes a bs).read x
      = if a ≤ x ∧ x < a + bs.length then bs.getD (x - a) unlistedByte else m.read x := by
  induction bs generalizing m a with
  | nil => simp [Memory.writeBytes, show ¬(a ≤ x ∧ x < a) by omega]
  | cons b bs ih =>
    simp only [Memory.writeBytes, ih, read_write, List.length_cons]
    by_cases h0 : x = a
    · subst h0; simp
    · by_cases h1 : a + 1 ≤ x ∧ x < a + 1 + bs.length
      · have hk : x - a = (x - (a + 1)) + 1 := by omega
        rw [if_pos h1, if_pos (by omega), hk, List.getD_cons_succ]
      · rw [if_neg h1, if_neg h0, if_neg (by omega)]

/-- Consecutive bytes given by a function of their offset. -/
theorem read_writeBytes_map (f : Nat → Byte) (m : Memory) (a n x : Nat) :
    (m.writeBytes a ((List.range n).map f)).read x
      = if a ≤ x ∧ x < a + n then f (x - a) else m.read x := by
  rw [read_writeBytes]
  simp only [List.length_map, List.length_range]
  by_cases h : a ≤ x ∧ x < a + n
  · have hk : x - a < n := by omega
    simp [h, List.getD_eq_getElem?_getD, List.getElem?_map, List.getElem?_range hk]
  · simp [h]

/-- The canonical form, clause by clause. -/
theorem wf_cons (a : Nat) (b : Byte) (rest : Memory) :
    Memory.wf ((a, b) :: rest) = true
      ↔ a < memSize ∧ b ≠ unlistedByte ∧ (∀ c ∈ rest, a < c.1) ∧ Memory.wf rest = true := by
  simp [Memory.wf, List.all_eq_true, and_assoc]

theorem wf_filter (m : Memory) (p : Host.Cell → Bool) (h : m.wf = true) :
    Memory.wf (m.filter p) = true := by
  induction m with
  | nil => simpa using h
  | cons c rest ih =>
    obtain ⟨a, b⟩ := c
    obtain ⟨h1, h2, h3, h4⟩ := (wf_cons a b rest).mp h
    simp only [List.filter_cons]
    split
    · exact (wf_cons _ _ _).mpr ⟨h1, h2, fun c hc => h3 c (List.mem_filter.mp hc).1, ih h4⟩
    · exact ih h4

theorem mem_insert (m : Memory) (a : Nat) (b : Byte) (c : Host.Cell) :
    c ∈ Memory.insert m a b → c = (a, b) ∨ c ∈ m := by
  induction m with
  | nil => simp [Memory.insert]
  | cons d rest ih =>
    obtain ⟨a', b'⟩ := d
    unfold Memory.insert
    split
    · simp
    · simp only [List.mem_cons]
      rintro (h | h)
      · exact .inr (.inl h)
      · rcases ih h with h | h
        · exact .inl h
        · exact .inr (.inr h)

theorem wf_insert (m : Memory) (a : Nat) (b : Byte) (h : m.wf = true) (ha : a < memSize)
    (hb : b ≠ unlistedByte) (hm : ∀ c ∈ m, c.1 ≠ a) : (Memory.insert m a b).wf = true := by
  induction m with
  | nil => exact (wf_cons _ _ _).mpr ⟨ha, hb, by simp, rfl⟩
  | cons c rest ih =>
    obtain ⟨a', b'⟩ := c
    obtain ⟨h1, h2, h3, h4⟩ := (wf_cons a' b' rest).mp h
    have hne : a' ≠ a := hm (a', b') (by simp)
    unfold Memory.insert
    split
    · next hlt =>
      refine (wf_cons _ _ _).mpr ⟨ha, hb, ?_, h⟩
      intro c hc
      rcases List.mem_cons.mp hc with rfl | hc
      · exact hlt
      · exact lt_trans hlt (h3 c hc)
    · next hlt =>
      refine (wf_cons _ _ _).mpr ⟨h1, h2, ?_, ih h4 (fun c hc => hm c (by simp [hc]))⟩
      intro c hc
      rcases mem_insert _ _ _ _ hc with rfl | hc
      · show a' < a; omega
      · exact h3 c hc

/-- A write inside the address space keeps the canonical form. -/
theorem wf_write (m : Memory) (a : Nat) (b : Byte) (h : m.wf = true) (ha : a < memSize) :
    (m.write a b).wf = true := by
  unfold Memory.write
  by_cases hb : b = unlistedByte
  · simpa [hb] using wf_filter m _ h
  · simp only [hb, if_false]
    exact wf_insert _ _ _ (wf_filter m _ h) ha hb
      (fun c hc => by simpa using (List.mem_filter.mp hc).2)

/-- A write of consecutive bytes inside the address space keeps the canonical form. -/
theorem wf_writeBytes (bs : List Byte) (m : Memory) (a : Nat) (h : m.wf = true)
    (ha : a + bs.length ≤ memSize) : (m.writeBytes a bs).wf = true := by
  induction bs generalizing m a with
  | nil => exact h
  | cons b bs ih =>
    simp only [List.length_cons] at ha
    exact ih _ _ (wf_write m a b h (by omega)) (by omega)

@[simp] theorem anyBytes_length (start n : Nat) : (anyBytes start n).length = n := by
  simp [anyBytes]

/-- Reads after consecutive draws (rules R74, R262). -/
theorem read_anyBytes (m : Memory) (a start n x : Nat) :
    (m.writeBytes a (anyBytes start n)).read x
      = if a ≤ x ∧ x < a + n then Config.anyByte (start + (x - a)) else m.read x :=
  read_writeBytes_map (fun k => Config.anyByte (start + k)) m a n x

/-- A word read is the four bytes, the lowest address least significant (rule R62). -/
theorem read32_eq (m : Memory) (a : Nat) :
    m.read32 a = BitVec.ofNat 32 ((m.read a).toNat + 2 ^ 8 * (m.read (a + 1)).toNat
      + 2 ^ 16 * (m.read (a + 2)).toNat + 2 ^ 24 * (m.read (a + 3)).toNat) := by
  unfold Memory.read32
  apply BitVec.eq_of_toNat_eq
  generalize m.read a = x0
  generalize m.read (a + 1) = x1
  generalize m.read (a + 2) = x2
  generalize m.read (a + 3) = x3
  have h0 := x0.isLt
  have h1 := x1.isLt
  have h2 := x2.isLt
  have h3 := x3.isLt
  simp only [BitVec.toNat_append, BitVec.toNat_ofNat]
  rw [← Nat.shiftLeft_add_eq_or_of_lt h2, ← Nat.shiftLeft_add_eq_or_of_lt h1,
    ← Nat.shiftLeft_add_eq_or_of_lt h0]
  simp only [Nat.shiftLeft_eq]
  omega

/-- Draws for ranges inside the address space keep the canonical form. -/
theorem wf_havoc (rs : List Range) (s : State) (h : s.mem.wf = true)
    (hr : ∀ r ∈ rs, r.base + r.len ≤ memSize) : (s.havoc rs).mem.wf = true := by
  induction rs generalizing s with
  | nil => exact h
  | cons r rs ih =>
    unfold State.havoc
    refine ih _ ?_ (fun q hq => hr q (by simp [hq]))
    exact wf_writeBytes _ _ _ h (by simpa using hr r (by simp))

/-- Two memories in canonical form that read alike are equal. -/
theorem read_eq_of_lt (m : Memory) (x : Nat) (h : ∀ c ∈ m, x < c.1) : m.read x = unlistedByte := by
  induction m with
  | nil => rfl
  | cons c rest ih =>
    obtain ⟨a, b⟩ := c
    have : x < a := h (a, b) (by simp)
    simp [Memory.read, show a ≠ x by omega, ih (fun c hc => h c (by simp [hc]))]

theorem eq_of_read_eq (m n : Memory) (hm : m.wf = true) (hn : n.wf = true)
    (h : ∀ x, m.read x = n.read x) : m = n := by
  induction m generalizing n with
  | nil =>
    cases n with
    | nil => rfl
    | cons c rest =>
      obtain ⟨a, b⟩ := c
      obtain ⟨_, h2, _, _⟩ := (wf_cons a b rest).mp hn
      have := h a
      simp [Memory.read] at this
      exact absurd this.symm h2
  | cons c rest ih =>
    obtain ⟨a, b⟩ := c
    obtain ⟨h1, h2, h3, h4⟩ := (wf_cons a b rest).mp hm
    cases n with
    | nil =>
      have := h a
      simp [Memory.read] at this
      exact absurd this h2
    | cons c' rest' =>
      obtain ⟨a', b'⟩ := c'
      obtain ⟨h1', h2', h3', h4'⟩ := (wf_cons a' b' rest').mp hn
      have haa : a = a' := by
        rcases Nat.lt_trichotomy a a' with hlt | heq | hgt
        · have := h a
          rw [read_eq_of_lt ((a', b') :: rest') a (by
            intro c hc
            rcases List.mem_cons.mp hc with rfl | hc
            · exact hlt
            · exact lt_trans hlt (h3' c hc))] at this
          simp [Memory.read] at this
          exact absurd this h2
        · exact heq
        · have := h a'
          rw [read_eq_of_lt ((a, b) :: rest) a' (by
            intro c hc
            rcases List.mem_cons.mp hc with rfl | hc
            · exact hgt
            · exact lt_trans hgt (h3 c hc))] at this
          simp [Memory.read] at this
          exact absurd this.symm h2'
      subst haa
      have hbb : b = b' := by simpa [Memory.read] using h a
      subst hbb
      congr 1
      refine ih rest' h4 h4' (fun x => ?_)
      by_cases hx : a = x
      · subst hx
        rw [read_eq_of_lt rest a h3, read_eq_of_lt rest' a h3']
      · simpa [Memory.read, hx] using h x

end Sys2Proof.Machine
end

