-- ==== Sys2Proof/Laws/State.lean ====
section
/-! SUPPORT. One lemma per field for each named update of the state: `raise`, `complete`, `resetRegs`,
`register`, `havoc`. -/

namespace Sys2Proof.Machine

section raise
variable (s : State) (c : ErrCode) (p : Option Path)

@[simp] theorem raise_cfg : (s.raise c p).cfg = s.cfg := rfl
@[simp] theorem raise_regs : (s.raise c p).regs = s.regs := rfl
@[simp] theorem raise_status : (s.raise c p).status = s.status.failed c p := rfl
@[simp] theorem raise_result : (s.raise c p).result = s.result := rfl
@[simp] theorem raise_scratchBase : (s.raise c p).scratchBase = s.scratchBase := rfl
@[simp] theorem raise_errlog : (s.raise c p).errlog = s.errlog.set c := rfl
@[simp] theorem raise_mem : (s.raise c p).mem = s.mem := rfl
@[simp] theorem raise_regions : (s.raise c p).regions = s.regions := rfl
@[simp] theorem raise_host : (s.raise c p).host = s.host := rfl
@[simp] theorem raise_hostRead : (s.raise c p).hostRead = s.hostRead := rfl
@[simp] theorem raise_draws : (s.raise c p).draws = s.draws := rfl

end raise

section complete
variable (s : State) (p : Option Path)

@[simp] theorem complete_cfg : (s.complete p).cfg = s.cfg := rfl
@[simp] theorem complete_regs : (s.complete p).regs = s.regs := rfl
@[simp] theorem complete_status : (s.complete p).status = s.status.completed p := rfl
@[simp] theorem complete_result : (s.complete p).result = s.result := rfl
@[simp] theorem complete_scratchBase : (s.complete p).scratchBase = s.scratchBase := rfl
@[simp] theorem complete_errlog : (s.complete p).errlog = s.errlog := rfl
@[simp] theorem complete_mem : (s.complete p).mem = s.mem := rfl
@[simp] theorem complete_regions : (s.complete p).regions = s.regions := rfl
@[simp] theorem complete_host : (s.complete p).host = s.host := rfl
@[simp] theorem complete_hostRead : (s.complete p).hostRead = s.hostRead := rfl
@[simp] theorem complete_draws : (s.complete p).draws = s.draws := rfl

end complete

section resetRegs
variable (s : State)

@[simp] theorem resetRegs_cfg : s.resetRegs.cfg = s.cfg := rfl
@[simp] theorem resetRegs_regs : s.resetRegs.regs = OperandRegs.zero := rfl
@[simp] theorem resetRegs_status : s.resetRegs.status = Status.zero := rfl
@[simp] theorem resetRegs_result : s.resetRegs.result = 0 := rfl
@[simp] theorem resetRegs_scratchBase : s.resetRegs.scratchBase = 0 := rfl
@[simp] theorem resetRegs_errlog : s.resetRegs.errlog = ErrLog.zero := rfl
@[simp] theorem resetRegs_mem : s.resetRegs.mem = s.mem := rfl
@[simp] theorem resetRegs_regions : s.resetRegs.regions = s.regions := rfl
@[simp] theorem resetRegs_host : s.resetRegs.host = s.host := rfl
@[simp] theorem resetRegs_hostRead : s.resetRegs.hostRead = s.hostRead := rfl
@[simp] theorem resetRegs_draws : s.resetRegs.draws = s.draws := rfl

end resetRegs

section status
variable (st : Status) (c : ErrCode) (p : Option Path)

@[simp] theorem completed_err : (st.completed p).err = none := rfl
@[simp] theorem completed_sv : (st.completed p).sv = st.sv := rfl
@[simp] theorem completed_path : (st.completed p).path = p := rfl
@[simp] theorem failed_err : (st.failed c p).err = some c := rfl
@[simp] theorem failed_sv : (st.failed c p).sv = st.sv := rfl
theorem failed_path_none (h : c = .illegalCmd ∨ c = .shape) : (st.failed c p).path = none := by
  rcases h with rfl | rfl <;> rfl
theorem failed_path (h : c ≠ .illegalCmd) (h' : c ≠ .shape) : (st.failed c p).path = p := by
  cases c <;> first | rfl | contradiction

end status

@[simp] theorem errlog_get_set_same (l : ErrLog) (c : ErrCode) : (l.set c).get c = true := by
  cases c <;> rfl

/-- Setting one ERRLOG bit clears no other (rule R47). -/
theorem errlog_get_set_of_get (l : ErrLog) (c d : ErrCode) (h : l.get d = true) :
    (l.set c).get d = true := by
  cases c <;> cases d <;> first | rfl | exact h

theorem errlog_get_set_ne (l : ErrLog) {c d : ErrCode} (h : d ≠ c) : (l.set c).get d = l.get d := by
  cases c <;> cases d <;> first | rfl | exact absurd rfl h

section register
variable (s : State) (a : Word)

theorem register_eq : s.register a =
    { s with scratchBase := a, status := { s.status with sv := decide (a ≠ 0) } } := by
  unfold State.register
  by_cases h : a = 0#32 <;> simp [h]

end register

section havoc

/-- Havoc writes memory and draws, and nothing else. -/
theorem havoc_eq (rs : List Range) (s : State) :
    s.havoc rs = { s with mem := (s.havoc rs).mem, draws := (s.havoc rs).draws } := by
  induction rs generalizing s with
  | nil => rfl
  | cons r rs ih => unfold State.havoc; rw [ih]

end havoc

/-- Reading an operand register after a host write of it gives the value less its reserved bits
(rules R21, R24). -/
@[simp] theorem operand_get_set_same (g : OperandRegs) (r : OpReg) (v : Word) :
    (g.set r v).get r = v &&& r.mask := by
  cases r <;> rfl

/-- A host write of one operand register leaves every other alone (rule R21). -/
theorem operand_get_set_other (g : OperandRegs) {r q : OpReg} (v : Word) (h : q ≠ r) :
    (g.set r v).get q = g.get q := by
  cases r <;> cases q <;> first | rfl | exact absurd rfl h

end Sys2Proof.Machine
end

