-- ==== Sys2Proof/Laws/Exec.lean ====
section
/-! SUPPORT. What each command can do, said once: a next state of `exec` is one of the cases these
lemmas list. -/

namespace Sys2Proof.Machine

/-- A verdict to go on is the route, on a CONVOLVE that is ready (rule R157). -/
theorem convVerdict_go (s : State) (b : Bool) (p : Path) :
    s.convVerdict b = .go p ↔ s.convReady b ∧ p = s.route := by
  unfold State.convVerdict State.convReady
  constructor
  · intro h
    split at h
    · cases h
    · split at h
      · cases h
      · split at h
        · cases h
        · split at h
          · cases h
          · split at h
            · cases h
            · next h1 h2 h3 h4 _ h5 =>
              cases h
              refine ⟨⟨by simpa using h1, by simpa using h2, by simpa using h3, ?_, h5⟩, rfl⟩
              intro hn
              simpa [hn] using h4
  · rintro ⟨⟨h1, h2, h3, h4, h5⟩, rfl⟩
    have h6 : (needsScratch s.route && !s.status.sv) = false := by
      cases hn : needsScratch s.route
      · rfl
      · simp [h4 hn]
    simp [h1, h2, h3, h6, h5]

/-- An error verdict of CONVOLVE names a code with the path rule R234 gives it. -/
theorem convVerdict_err (s : State) (b : Bool) (c : ErrCode) (p : Option Path)
    (h : s.convVerdict b = .err c p) :
    (c = .shape ∧ p = none) ∨ (c ≠ .shape ∧ c ≠ .illegalCmd ∧ p = some s.route) := by
  unfold State.convVerdict at h
  split at h
  · cases h; exact .inl ⟨rfl, rfl⟩
  · split at h
    · cases h; exact .inr ⟨by decide, by decide, rfl⟩
    · split at h
      · cases h; exact .inr ⟨by decide, by decide, rfl⟩
      · split at h
        · cases h; exact .inr ⟨by decide, by decide, rfl⟩
        · split at h <;> cases h

/-- A verdict to go on is the route, on a PACK that is ready (rule R216). -/
theorem packVerdict_go (s : State) (mode : PackMode) (p : Path) :
    s.packVerdict mode = .go p ↔ s.packReady mode ∧ p = s.route := by
  unfold State.packVerdict State.packReady
  constructor
  · intro h
    split at h
    · cases h
    · split at h
      · cases h
      · split at h
        · cases h
        · split at h
          · cases h
          · split at h
            · cases h
            · next h1 h2 h3 h4 _ h5 =>
              cases h
              refine ⟨⟨by simpa using h1, ?_, by simpa using h3, by simpa using h4, h5⟩, rfl⟩
              intro hm
              simpa [hm] using h2
  · rintro ⟨⟨h1, h2, h3, h4, h5⟩, rfl⟩
    have h6 : (decide (mode = .pad) && decide (s.shape.izp = -128)) = false := by
      by_cases hm : mode = .pad
      · simp [hm, h2 hm]
      · simp [hm]
    simp [h1, h6, h3, h4, h5]

/-- An error verdict of PACK names a code with the path rule R234 gives it. -/
theorem packVerdict_err (s : State) (mode : PackMode) (c : ErrCode) (p : Option Path)
    (h : s.packVerdict mode = .err c p) :
    (c = .shape ∧ p = none) ∨ (c ≠ .shape ∧ c ≠ .illegalCmd ∧ p = some s.route) := by
  unfold State.packVerdict at h
  split at h
  · cases h; exact .inl ⟨rfl, rfl⟩
  · split at h
    · cases h; exact .inl ⟨rfl, rfl⟩
    · split at h
      · cases h; exact .inr ⟨by decide, by decide, rfl⟩
      · split at h
        · cases h; exact .inr ⟨by decide, by decide, rfl⟩
        · split at h <;> cases h

/-- What a CONVOLVE that answers a next state did (rule R157). -/
theorem convolveWith_cases {b : Bool} {s t : State} (h : convolveWith b s = .next t) :
    (∃ c p, s.convVerdict b = .err c p ∧ t = s.raise c p)
      ∨ (s.convReady b ∧ t = s.convolved b s.route) := by
  unfold convolveWith at h
  split at h
  · next c p hv => cases h; exact .inl ⟨c, p, hv, rfl⟩
  · cases h
  · next p hv =>
    cases h
    obtain ⟨hr, rfl⟩ := (convVerdict_go s b p).mp hv
    exact .inr ⟨hr, rfl⟩

/-- A CONVOLVE that is ready runs (rule R157). -/
theorem convolveWith_of_ready {b : Bool} {s : State} (h : s.convReady b) :
    convolveWith b s = .next (s.convolved b s.route) := by
  unfold convolveWith
  rw [(convVerdict_go s b s.route).mpr ⟨h, rfl⟩]

/-- What a PACK that answers a next state did (rule R216). -/
theorem packWith_cases {mode : PackMode} {s t : State} (h : packWith mode s = .next t) :
    (∃ c p, s.packVerdict mode = .err c p ∧ t = s.raise c p)
      ∨ (s.packReady mode ∧ t = s.packed mode s.route) := by
  unfold packWith at h
  split at h
  · next c p hv => cases h; exact .inl ⟨c, p, hv, rfl⟩
  · cases h
  · next p hv =>
    cases h
    obtain ⟨hr, rfl⟩ := (packVerdict_go s mode p).mp hv
    exact .inr ⟨hr, rfl⟩

/-- A PACK that is ready runs (rule R216). -/
theorem packWith_of_ready {mode : PackMode} {s : State} (h : s.packReady mode) :
    packWith mode s = .next (s.packed mode s.route) := by
  unfold packWith
  rw [(packVerdict_go s mode s.route).mpr ⟨h, rfl⟩]

/-- What PLAN_SIZE did (rule R140). -/
theorem execPlanSize_cases {s t : State} (h : execPlanSize s = .next t) :
    t = s.raise .shape none ∨ t = s.raise .range (some s.route)
      ∨ (s.shape.valid = true ∧ s.plannedSize ≤ 4294967295
        ∧ t = { s with result := BitVec.ofNat 32 s.plannedSize }.complete (some s.route)) := by
  unfold execPlanSize at h
  split at h
  · cases h; exact .inl rfl
  · split at h
    · cases h; exact .inr (.inl rfl)
    · next h1 h2 =>
      cases h
      exact .inr (.inr ⟨by simpa using h1, by simpa [State.planTooLarge] using h2, rfl⟩)

/-- What REQUANT.O did (rule R120). -/
theorem execRequantO_cases {s t : State} (h : execRequantO s = .next t) :
    t = s.raise .shape none
      ∨ (s.shape.outStageInvalid = false
        ∧ t = { s with
            result := (s.rqOutByte.getD (Config.anyByte s.draws)).signExtend 32
            draws := s.draws + 1 }.complete none) := by
  unfold execRequantO at h
  split at h
  · cases h; exact .inl rfl
  · next h1 => cases h; exact .inr ⟨by simpa using h1, rfl⟩

/-- What any command did: it failed, or it completed without an error (rules R230, R234). -/
theorem exec_cases {i : Instr} {s t : State} (h : exec i s = .next t) :
    (∃ c p, t = s.raise c p ∧ ((c = .shape ∧ p = none)
        ∨ (c ≠ .shape ∧ c ≠ .illegalCmd ∧ p = some s.route)))
      ∨ (t.status.err = none ∧ t.errlog = s.errlog ∧ t.regs = s.regs ∧ t.cfg = s.cfg
        ∧ t.regions = s.regions ∧ t.host = s.host ∧ t.hostRead = s.hostRead) := by
  cases i
  case nop => cases h; exact .inr ⟨rfl, rfl, rfl, rfl, rfl, rfl, rfl⟩
  case setScratch =>
    cases h; right
    rw [register_eq]
    exact ⟨rfl, rfl, rfl, rfl, rfl, rfl, rfl⟩
  case requant => cases h; exact .inr ⟨rfl, rfl, rfl, rfl, rfl, rfl, rfl⟩
  case planSize =>
    rcases execPlanSize_cases h with rfl | rfl | ⟨_, _, rfl⟩
    · exact .inl ⟨_, _, rfl, .inl ⟨rfl, rfl⟩⟩
    · exact .inl ⟨_, _, rfl, .inr ⟨by decide, by decide, rfl⟩⟩
    · exact .inr ⟨rfl, rfl, rfl, rfl, rfl, rfl, rfl⟩
  case requantO =>
    rcases execRequantO_cases h with rfl | ⟨_, rfl⟩
    · exact .inl ⟨_, _, rfl, .inl ⟨rfl, rfl⟩⟩
    · exact .inr ⟨rfl, rfl, rfl, rfl, rfl, rfl, rfl⟩
  all_goals first
    | (rcases convolveWith_cases h with ⟨c, p, hv, rfl⟩ | ⟨_, rfl⟩
       · exact .inl ⟨c, p, rfl, convVerdict_err _ _ _ _ hv⟩
       · exact .inr ⟨rfl, rfl, rfl, rfl, rfl, rfl, rfl⟩)
    | (rcases packWith_cases h with ⟨c, p, hv, rfl⟩ | ⟨_, rfl⟩
       · exact .inl ⟨c, p, rfl, packVerdict_err _ _ _ _ hv⟩
       · exact .inr ⟨rfl, rfl, rfl, rfl, rfl, rfl, rfl⟩)

/-- The step of a host whose next access is known. -/
theorem step_cons {s : State} {a : HostAction} {rest : List HostAction} (h : s.host = a :: rest) :
    step s = hostAct a { s with host := rest } := by
  unfold step
  rw [h]

/-- A write of CMD runs the word (rules R21, R42). -/
theorem step_cmd {s : State} {v : Word} {rest : List HostAction}
    (h : s.host = .regWrite 0#8 v :: rest) : step s = runCommand v { s with host := rest } := by
  rw [step_cons h]
  rfl

end Sys2Proof.Machine
end

