-- ==== Sys2Proof/Laws/HostAccess.lean ====
section
/-! SUPPORT. The register index space as the host sees it (rules R21 to R23). -/

namespace Sys2Proof.Machine

/-- The index of a register selects that register (10_state.md sections 3 and 6). -/
theorem ofIndex_index (r : Reg) : Reg.ofIndex r.index = some r := by
  cases r with
  | op r => cases r <;> rfl
  | _ => rfl

/-- A read at a register's index is the register (rule R22). -/
theorem regRead_index (s : State) (r : Reg) : s.regRead r.index = s.readReg r := by
  unfold State.regRead
  rw [ofIndex_index]

/-- A host write is a command, or writes one operand register, or changes nothing (rule R21). -/
theorem regWrite_cases {idx : BitVec 8} {v : Word} {s t : State} (h : regWrite idx v s = .next t) :
    (idx = 0#8 ∧ runCommand v s = .next t) ∨ t = s
      ∨ ∃ r : OpReg, t = { s with regs := s.regs.set r v } := by
  unfold regWrite at h
  split at h
  · next hi => exact .inl ⟨hi, h⟩
  · cases h
    right
    unfold State.regStore
    split
    · exact .inr ⟨_, rfl⟩
    all_goals exact .inl rfl

end Sys2Proof.Machine
end

