-- ==== Sys2Proof/Laws/Operands.lean ====
section
/-! SUPPORT. The laws of the operand forms: NHWC offsets (rule R15), `roundup` (rule R14), what a valid
shape guarantees (rule R160), and the class, the channels and the route over the shape's fields. -/

namespace Sys2Proof.Machine

/-- An element's offset lies inside its tensor (rules R15, R67, R71). -/
theorem tensorOffset_lt {H W C y x c : Nat} (hy : y < H) (hx : x < W) (hc : c < C) :
    tensorOffset W C y x c < H * W * C := by
  unfold tensorOffset
  have h1 : y * W + x < H * W := by
    have : (y + 1) * W ≤ H * W := Nat.mul_le_mul_right _ hy
    rw [Nat.add_mul] at this; omega
  have : (y * W + x + 1) * C ≤ H * W * C := Nat.mul_le_mul_right _ h1
  rw [Nat.add_mul] at this; omega

/-- The channel, column and row of an offset (rule R15). -/
theorem tensorOffset_coords {W C y x c : Nat} (hx : x < W) (hc : c < C) :
    tensorOffset W C y x c / C / W = y ∧ tensorOffset W C y x c / C % W = x
      ∧ tensorOffset W C y x c % C = c := by
  unfold tensorOffset
  have hC : 0 < C := by omega
  have hW : 0 < W := by omega
  have h1 : ((y * W + x) * C + c) / C = y * W + x := by
    rw [Nat.add_comm, Nat.add_mul_div_right _ _ hC, Nat.div_eq_of_lt hc, Nat.zero_add]
  have h2 : ((y * W + x) * C + c) % C = c := by
    rw [Nat.add_comm, Nat.add_mul_mod_self_right, Nat.mod_eq_of_lt hc]
  have h3 : (y * W + x) / W = y := by
    rw [Nat.add_comm, Nat.add_mul_div_right _ _ hW, Nat.div_eq_of_lt hx, Nat.zero_add]
  have h4 : (y * W + x) % W = x := by
    rw [Nat.add_comm, Nat.add_mul_mod_self_right, Nat.mod_eq_of_lt hx]
  rw [h1, h2, h3, h4]
  exact ⟨rfl, rfl, rfl⟩

/-- A filter element's offset lies inside the filter (rules R15, R68). -/
theorem filterOffset_lt {p : Shape} {oc fy fx c : Nat} (h1 : oc < p.oc) (h2 : fy < p.fh)
    (h3 : fx < p.fw) (h4 : c < p.ic) : filterOffset p oc fy fx c < p.filtLen := by
  have e1 := tensorOffset_lt (H := p.oc) (W := p.fh) (C := p.fw) h1 h2 h3
  have e2 := tensorOffset_lt (H := 1) (y := 0) (W := p.oc * p.fh * p.fw) (C := p.ic)
    (by omega) e1 h4
  simpa [tensorOffset, filterOffset, Shape.filtLen] using e2

theorem le_roundup (n m : Nat) (hm : 0 < m) : n ≤ roundup n m := by
  unfold roundup
  have := Nat.div_add_mod (n + m - 1) m
  have := Nat.mod_lt (n + m - 1) hm
  omega

theorem roundup_le (n m : Nat) (hm : 0 < m) : roundup n m ≤ n + (m - 1) := by
  unfold roundup
  have := Nat.div_add_mod (n + m - 1) m
  omega

/-- The rounded channel count is no smaller than the channel count (rule R211). -/
theorem le_rc (p : Shape) : p.ic ≤ p.rc := by
  unfold Shape.rc vec vecWide
  split <;> apply le_roundup <;> decide

/-- A valid shape has no zero dimension and no zero stride (rule R160). -/
theorem valid_pos {p : Shape} (h : p.valid = true) :
    0 < p.iw ∧ 0 < p.ih ∧ 0 < p.ic ∧ 0 < p.fw ∧ 0 < p.fh ∧ 0 < p.ow ∧ 0 < p.oh ∧ 0 < p.oc
      ∧ 0 < p.sw ∧ 0 < p.sh := by
  simp only [Shape.valid, Bool.not_eq_true', Bool.or_eq_false_iff, Shape.zeroDim, Shape.zeroStride,
    decide_eq_false_iff_not] at h
  omega

/-- On a valid shape the last window ends inside the padded input (rule R161). -/
theorem valid_window {p : Shape} (h : p.valid = true) :
    (p.ow - 1) * p.sw + p.fw ≤ p.iw + 2 * p.pw ∧ (p.oh - 1) * p.sh + p.fh ≤ p.ih + 2 * p.ph := by
  simp only [Shape.valid, Bool.not_eq_true', Bool.or_eq_false_iff, Shape.windowOutside,
    decide_eq_false_iff_not] at h
  omega

/-- The zero points of a valid shape are signed bytes (rule R31). -/
theorem valid_zeroPoints {p : Shape} (h : p.valid = true) :
    (-128 ≤ p.izp ∧ p.izp ≤ 127) ∧ (-128 ≤ p.ozp ∧ p.ozp ≤ 127) := by
  simp only [Shape.valid, Bool.not_eq_true', Bool.or_eq_false_iff, Shape.zeroPointOutside,
    decide_eq_false_iff_not] at h
  omega

/-- `Is1x1Class` over the fields (rule R141). -/
theorem is1x1_iff (p : Shape) :
    p.is1x1 = true ↔ p.fw = 1 ∧ p.fh = 1 ∧ p.pw = 0 ∧ p.ph = 0 ∧ p.sw = 1 ∧ p.sh = 1 := by
  simp [Shape.is1x1]

/-- The rounded channel count over the fields (rules R142, R143, R211). -/
theorem rc_eq (p : Shape) :
    p.rc = if p.fw = 1 ∧ p.fh = 1 ∧ p.pw = 0 ∧ p.ph = 0 ∧ p.sw = 1 ∧ p.sh = 1
      then 8 * ((p.ic + 7) / 8) else 16 * ((p.ic + 15) / 16) := by
  simp only [Shape.rc, is1x1_iff, roundup, vec, vecWide]
  rfl

/-- `Route()` over the fields (rule R166). -/
theorem route_eq (s : State) :
    s.route = if s.shape.fw = 1 ∧ s.shape.fh = 1 ∧ s.shape.pw = 0 ∧ s.shape.ph = 0 ∧ s.shape.sw = 1
        ∧ s.shape.sh = 1 then .oneByOne
      else if s.shape.pw = 0 ∧ s.shape.ph = 0 then .windowed
      else if s.cfg.prepad = true ∧ -127 ≤ s.shape.izp then .windowed
      else .fallback := by
  simp only [State.route, route, is1x1_iff, Shape.unpadded, Bool.and_eq_true, decide_eq_true_eq]

/-- The planned size does not fit 32 bits (rule R149). -/
theorem planTooLarge_iff (s : State) : s.planTooLarge = true ↔ s.plannedSize > 2 ^ 32 - 1 := by
  simp [State.planTooLarge]

end Sys2Proof.Machine
end

