-- ==== Sys2Proof/Laws/PerInstr.lean ====
section
/-! SUPPORT. The family `RoundTrip`: what the encoder writes for a command, the decoder reads back, and the
word's fields are the command's (rules R91, R92). -/

namespace Sys2Proof.Laws

/-- Encoding and decoding agree on this command. -/
def RoundTrip.Statement (i : Instr) : Prop :=
  i.wf = true ∧ decodeWord (encode i) = .ok i ∧ Fields.ofWord (encode i) = i.fields
    ∧ decodeTableWord 32 (encode i).toNat = some i

theorem RoundTrip.nop : RoundTrip.Statement .nop := by unfold RoundTrip.Statement; decide
theorem RoundTrip.planSize : RoundTrip.Statement .planSize := by unfold RoundTrip.Statement; decide
theorem RoundTrip.setScratch : RoundTrip.Statement .setScratch := by unfold RoundTrip.Statement; decide
theorem RoundTrip.convolve : RoundTrip.Statement .convolve := by unfold RoundTrip.Statement; decide
theorem RoundTrip.convolveB : RoundTrip.Statement .convolveB := by unfold RoundTrip.Statement; decide
theorem RoundTrip.requant : RoundTrip.Statement .requant := by unfold RoundTrip.Statement; decide
theorem RoundTrip.requantO : RoundTrip.Statement .requantO := by unfold RoundTrip.Statement; decide
theorem RoundTrip.packCin : RoundTrip.Statement .packCin := by unfold RoundTrip.Statement; decide
theorem RoundTrip.packCfilt : RoundTrip.Statement .packCfilt := by unfold RoundTrip.Statement; decide
theorem RoundTrip.packPad : RoundTrip.Statement .packPad := by unfold RoundTrip.Statement; decide

end Sys2Proof.Laws
end

