-- ==== Sys2Proof/Laws/Rounding.lean ====
section
/-! SUPPORT. The laws of the rounding helpers `rha`, `rhu` and of `MULH` (rules R14, R123). -/

namespace Sys2Proof.Machine

/-- `rha` of a non-negative number is a floor (rule R14). -/
theorem rha_of_nonneg (n : Int) (k : Nat) (hk : 1 ≤ k) (h : 0 ≤ n) :
    rha n k = (n + 2 ^ (k - 1)) / 2 ^ k := by
  unfold rha signOf
  rw [if_neg (by omega), if_neg (by omega), one_mul]
  push_cast
  rw [abs_of_nonneg h]

/-- `rha` is odd: ties go away from zero on both sides (rule R14). -/
theorem rha_neg (n : Int) (k : Nat) : rha (-n) k = - rha n k := by
  unfold rha signOf
  split
  · rfl
  · rw [Int.natAbs_neg]
    rcases lt_trichotomy n 0 with h | h | h
    · rw [if_neg (by omega), if_pos h]; ring
    · subst h
      have : ((Int.natAbs 0 + 2 ^ (k - 1)) / 2 ^ k : Nat) = 0 := by
        rw [Nat.div_eq_zero_iff]; right
        simpa using Nat.pow_lt_pow_right (a := 2) (by omega) (show k - 1 < k by omega)
      rw [this]; simp
    · rw [if_pos (by omega), if_neg (by omega)]; ring

/-- The two halves of `2^k` (rule R14). -/
theorem two_pow_halves (k : Nat) (hk : 1 ≤ k) : (2 : Int) ^ k = 2 ^ (k - 1) + 2 ^ (k - 1) := by
  obtain ⟨j, rfl⟩ := Nat.exists_eq_add_of_le hk
  rw [Nat.add_sub_cancel_left, Nat.add_comm, pow_succ]; ring

theorem rha_zero (k : Nat) : rha 0 k = 0 := by
  have := rha_neg 0 k
  simp at this
  omega

/-- `rha n k` is within one half of `n / 2^k` (rule R14). -/
theorem rha_near (n : Int) (k : Nat) (hk : 1 ≤ k) : |rha n k * 2 ^ k - n| ≤ 2 ^ (k - 1) := by
  have key : ∀ m : Int, 0 ≤ m → |rha m k * 2 ^ k - m| ≤ 2 ^ (k - 1) := by
    intro m hm
    rw [rha_of_nonneg m k hk hm]
    have h1 := Int.emod_add_mul_ediv (m + 2 ^ (k - 1)) (2 ^ k)
    have h2 := Int.emod_nonneg (m + 2 ^ (k - 1)) (b := 2 ^ k) (by positivity)
    have h3 := Int.emod_lt_of_pos (m + 2 ^ (k - 1)) (b := 2 ^ k) (by positivity)
    have h4 := two_pow_halves k hk
    rw [abs_le]; constructor <;> nlinarith
  rcases le_or_gt 0 n with h | h
  · exact key n h
  · have := key (-n) (by omega)
    rw [rha_neg] at this
    rw [← abs_neg]
    convert this using 2; ring

/-- `rhu n k` is within one half of `n / 2^k` (rule R14). -/
theorem rhu_near (n : Int) (k : Nat) (hk : 1 ≤ k) : |rhu n k * 2 ^ k - n| ≤ 2 ^ (k - 1) := by
  unfold rhu
  rw [if_neg (by omega), Int.fdiv_eq_ediv_of_nonneg _ (by positivity)]
  have h1 := Int.emod_add_mul_ediv (n + 2 ^ (k - 1)) (2 ^ k)
  have h2 := Int.emod_nonneg (n + 2 ^ (k - 1)) (b := 2 ^ k) (by positivity)
  have h3 := Int.emod_lt_of_pos (n + 2 ^ (k - 1)) (b := 2 ^ k) (by positivity)
  have h4 := two_pow_halves k hk
  rw [abs_le]; constructor <;> nlinarith

/-- `rha` does not decrease (rule R14). -/
theorem rha_mono {a b : Int} (k : Nat) (h : a ≤ b) : rha a k ≤ rha b k := by
  rcases Nat.eq_zero_or_pos k with rfl | hk
  · simpa [rha] using h
  have key : ∀ x y : Int, 0 ≤ x → x ≤ y → rha x k ≤ rha y k := by
    intro x y hx hxy
    rw [rha_of_nonneg x k hk hx, rha_of_nonneg y k hk (by omega)]
    exact Int.ediv_le_ediv (by positivity) (by omega)
  have pos : ∀ x : Int, 0 ≤ x → 0 ≤ rha x k := by
    intro x hx
    have := key 0 x le_rfl hx
    rwa [rha_zero] at this
  rcases le_or_gt 0 a with ha | ha
  · exact key a b ha h
  · have h1 := rha_neg a k
    rcases le_or_gt 0 b with hb | hb
    · have := pos (-a) (by omega)
      have := pos b hb
      omega
    · have h2 := rha_neg b k
      have := key (-b) (-a) (by omega) (by omega)
      omega

/-- `rhu` does not decrease (rule R14). -/
theorem rhu_mono {a b : Int} (k : Nat) (h : a ≤ b) : rhu a k ≤ rhu b k := by
  unfold rhu
  split
  · exact h
  · rw [Int.fdiv_eq_ediv_of_nonneg _ (by positivity), Int.fdiv_eq_ediv_of_nonneg _ (by positivity)]
    exact Int.ediv_le_ediv (by positivity) (by omega)

/-- `rha` and `rhu` differ by one at the exact tie of a negative number and nowhere else (rule R14). -/
theorem rha_eq_rhu (n : Int) (k : Nat) (hk : 1 ≤ k) :
    rha n k = if n < 0 ∧ n % 2 ^ k = 2 ^ (k - 1) then rhu n k - 1 else rhu n k := by
  have h4 := two_pow_halves k hk
  have hp : (0 : Int) < 2 ^ k := by positivity
  have hq : (0 : Int) < 2 ^ (k - 1) := by positivity
  unfold rhu
  rw [if_neg (by omega : ¬ k = 0), Int.fdiv_eq_ediv_of_nonneg _ (by positivity)]
  rcases le_or_gt 0 n with h | h
  · rw [if_neg (by omega), rha_of_nonneg n k hk h]
  · have h0 : rha n k = - ((-n + 2 ^ (k - 1)) / 2 ^ k) := by
      rw [← rha_of_nonneg (-n) k hk (by omega), rha_neg, neg_neg]
    have e1 := Int.emod_add_mul_ediv n (2 ^ k)
    have e2 := Int.emod_nonneg n (b := 2 ^ k) (by positivity)
    have e3 := Int.emod_lt_of_pos n (b := 2 ^ k) (by positivity)
    rw [h0]
    generalize hP : (2 : Int) ^ k = P at *
    generalize hQ : (2 : Int) ^ (k - 1) = Q at *
    by_cases ht : n % P = Q
    · rw [if_pos ⟨h, ht⟩]
      have a1 : (n + Q) / P = n / P + 1 := by
        have : n + Q = P * (n / P + 1) := by rw [mul_add]; omega
        rw [this, Int.mul_ediv_cancel_left _ (by omega)]
      have a2 : (-n + Q) / P = -(n / P) := by
        have : -n + Q = P * (-(n / P)) := by rw [mul_neg]; omega
        rw [this, Int.mul_ediv_cancel_left _ (by omega)]
      omega
    · rw [if_neg (by tauto)]
      by_cases hl : n % P < Q
      · have a1 : (n + Q) / P = n / P := by
          rw [show n + Q = (n % P + Q) + P * (n / P) by omega, Int.add_mul_ediv_left _ _ (by omega)]
          rw [Int.ediv_eq_zero_of_lt (by omega) (by omega)]; omega
        have a2 : (-n + Q) / P = -(n / P) := by
          rw [show -n + Q = (Q - n % P) + P * (-(n / P)) by rw [mul_neg]; omega,
            Int.add_mul_ediv_left _ _ (by omega)]
          rw [Int.ediv_eq_zero_of_lt (by omega) (by omega)]; omega
        omega
      · have a1 : (n + Q) / P = n / P + 1 := by
          rw [show n + Q = (n % P - Q) + P * (n / P + 1) by rw [mul_add]; omega,
            Int.add_mul_ediv_left _ _ (by omega)]
          rw [Int.ediv_eq_zero_of_lt (by omega) (by omega)]; omega
        have a2 : (-n + Q) / P = -(n / P) - 1 := by
          rw [show -n + Q = (Q + P - n % P) + P * (-(n / P) - 1) by rw [mul_sub, mul_neg]; omega,
            Int.add_mul_ediv_left _ _ (by omega)]
          rw [Int.ediv_eq_zero_of_lt (by omega) (by omega)]; omega
        omega

/-- `rha` keeps bounds that are whole multiples: between `-a` and `a` after the division (rule R121). -/
theorem rha_abs_le {n a : Int} (k : Nat) (h : |n| ≤ a * 2 ^ k) : |rha n k| ≤ a := by
  rcases Nat.eq_zero_or_pos k with rfl | hk
  · simpa [rha] using h
  rw [abs_le] at h ⊢
  have ha : rha (a * 2 ^ k) k = a := by
    have h0 : 0 ≤ a * 2 ^ k := by omega
    rw [rha_of_nonneg _ k hk h0, add_comm, Int.add_mul_ediv_right _ _ (by positivity)]
    have := two_pow_halves k hk
    have hq : (0 : Int) < 2 ^ (k - 1) := by positivity
    rw [Int.ediv_eq_zero_of_lt (by omega) (by omega)]; omega
  have h1 := rha_mono k h.2
  have h2 := rha_mono k h.1
  rw [rha_neg] at h2
  omega

theorem rhu_abs_le {n a : Int} (k : Nat) (h : |n| ≤ a * 2 ^ k) : |rhu n k| ≤ a := by
  rcases Nat.eq_zero_or_pos k with rfl | hk
  · simpa [rhu] using h
  rw [abs_le] at h ⊢
  have ha : ∀ c : Int, rhu (c * 2 ^ k) k = c := by
    intro c
    unfold rhu
    rw [if_neg (by omega), Int.fdiv_eq_ediv_of_nonneg _ (by positivity), add_comm,
      Int.add_mul_ediv_right _ _ (by positivity)]
    have := two_pow_halves k hk
    have hq : (0 : Int) < 2 ^ (k - 1) := by positivity
    rw [Int.ediv_eq_zero_of_lt (by omega) (by omega)]; omega
  have h1 := rhu_mono k h.2
  have h2 := rhu_mono k h.1
  rw [ha] at h1
  rw [show -(a * 2 ^ k) = (-a) * 2 ^ k by ring, ha] at h2
  omega

/-- Inside the requantizer's domain the saturation of `MULH` is not reached (rule R123). -/
theorem tiedMulh_of_nonneg (tie : MulhTie) (x m : Int) (hm : 0 ≤ m) :
    tiedMulh tie x m = match tie with | .away => rha (x * m) 31 | .up => rhu (x * m) 31 := by
  unfold tiedMulh
  cases tie <;> exact if_neg (by omega)

@[simp] theorem mulh_tied (tie : MulhTie) (x m : Int) : mulh (.tied tie) x m = tiedMulh tie x m := rfl

/-- A rounding right shift of a 32-bit value is a 32-bit value (rule R124). -/
theorem rha_fits {n : Int} (k : Nat) (h : fitsI32 n = true) : fitsI32 (rha n k) = true := by
  simp only [fitsI32, decide_eq_true_eq] at h ⊢
  have hk : (1 : Int) ≤ 2 ^ k := one_le_pow₀ (by omega)
  have lo := rha_abs_le (n := -2147483648) (a := 2147483648) k (by rw [abs_of_neg (by omega)]; nlinarith)
  have hi := rha_abs_le (n := 2147483647) (a := 2147483647) k (by rw [abs_of_nonneg (by omega)]; nlinarith)
  rw [abs_le] at lo hi
  have := rha_mono k h.1
  have := rha_mono k h.2
  omega

/-- A `MULH` other than the two of rule R123 also answers a 32-bit value (rule R126). -/
theorem mulh_other_fits (x m : Int) : fitsI32 (mulh .other x m) = true := by
  have h1 := BitVec.toInt_lt (x := Config.otherMulh (BitVec.ofInt 32 x) (BitVec.ofInt 32 m))
  have h2 := BitVec.le_toInt (x := Config.otherMulh (BitVec.ofInt 32 x) (BitVec.ofInt 32 m))
  unfold fitsI32 mulh
  simp only [decide_eq_true_eq]
  norm_num at h1 h2
  constructor <;> omega

/-- Inside the requantizer's domain `MULH` answers a 32-bit value, whatever function it is (rules R121,
R126). -/
theorem mulh_fits (f : Mulh) {x m : Int} (hx : fitsI32 x = true) (hm : 0 ≤ m) (hm' : m ≤ 2147483647) :
    fitsI32 (mulh f x m) = true := by
  cases f with
  | other => exact mulh_other_fits x m
  | tied tie =>
    simp only [fitsI32, decide_eq_true_eq] at hx ⊢
    have lo : -2147483648 * 2 ^ 31 ≤ x * m := by nlinarith
    have hi : x * m ≤ 2147483647 * 2 ^ 31 := by nlinarith
    rw [mulh_tied, tiedMulh_of_nonneg _ _ _ hm]
    cases tie
    · have := rha_mono 31 lo
      have := rha_mono 31 hi
      have : rha (2147483647 * 2 ^ 31) 31 = 2147483647 := by decide
      have : rha (-2147483648 * 2 ^ 31) 31 = -2147483648 := by decide
      simp only
      omega
    · have := rhu_mono 31 lo
      have := rhu_mono 31 hi
      have : rhu (2147483647 * 2 ^ 31) 31 = 2147483647 := by decide
      have : rhu (-2147483648 * 2 ^ 31) 31 = -2147483648 := by decide
      simp only
      omega

end Sys2Proof.Machine
end

