-- ==== Sys2Proof/Laws/Sums.lean ====
section
/-! SUPPORT. The laws of `sumTo`, the exact sums of rules R170, R191, R201 and R202. -/

namespace Sys2Proof.Machine

/-- `sumTo` is the finite sum over `0`, …, `n - 1`. -/
theorem sumTo_eq_sum (n : Nat) (f : Nat → Int) : sumTo n f = ∑ k ∈ Finset.range n, f k := by
  induction n with
  | zero => rfl
  | succ n ih => rw [sumTo, ih, Finset.sum_range_succ]

theorem sumTo_congr (n : Nat) (f g : Nat → Int) (h : ∀ k, k < n → f k = g k) :
    sumTo n f = sumTo n g := by
  induction n with
  | zero => rfl
  | succ n ih =>
    simp only [sumTo]
    rw [ih (fun k hk => h k (by omega)), h n (by omega)]

@[simp] theorem sumTo_zero_fun (n : Nat) : sumTo n (fun _ => 0) = 0 := by
  induction n with
  | zero => rfl
  | succ n ih => simp [sumTo, ih]

theorem sumTo_add (n : Nat) (f g : Nat → Int) :
    sumTo n (fun k => f k + g k) = sumTo n f + sumTo n g := by
  induction n with
  | zero => rfl
  | succ n ih => simp only [sumTo, ih]; ring

theorem sumTo_mul_right (n : Nat) (f : Nat → Int) (a : Int) :
    sumTo n (fun k => f k * a) = sumTo n f * a := by
  induction n with
  | zero => simp [sumTo]
  | succ n ih => simp only [sumTo, ih]; ring

/-- A sum over `m + n` terms splits. -/
theorem sumTo_split (m n : Nat) (f : Nat → Int) :
    sumTo (m + n) f = sumTo m f + sumTo n (fun k => f (m + k)) := by
  induction n with
  | zero => simp [sumTo]
  | succ n ih =>
    show sumTo (m + n) f + f (m + n) = _
    rw [ih]
    simp only [sumTo]
    ring

/-- A flat sum over `m` groups of `n` terms is the sum over the groups (rules R201, R202). -/
theorem sumTo_flatten (m n : Nat) (f : Nat → Int) :
    sumTo (m * n) f = sumTo m (fun i => sumTo n (fun j => f (i * n + j))) := by
  induction m with
  | zero => simp [sumTo]
  | succ m ih => rw [Nat.succ_mul, sumTo_split, ih, sumTo]

/-- A sum of `n` terms, each of magnitude at most `b`. -/
theorem sumTo_bound (n : Nat) (f : Nat → Int) (b : Int) (h : ∀ k, k < n → |f k| ≤ b) :
    |sumTo n f| ≤ n * b := by
  induction n with
  | zero => simp [sumTo]
  | succ n ih =>
    have h1 := ih (fun k hk => h k (by omega))
    have h2 := h n (by omega)
    have h3 := abs_add_le (sumTo n f) (f n)
    simp only [sumTo]
    push_cast
    linarith

/-- The offset term of the fast paths: `Σ (x + z) × w = Σ x × w + (Σ w) × z` (rules R191, R203). -/
theorem sumTo_offset (n : Nat) (x w : Nat → Int) (z : Int) :
    sumTo n (fun c => (x c + z) * w c)
      = sumTo n (fun c => x c * w c) + sumTo n w * z := by
  rw [← sumTo_mul_right, ← sumTo_add]
  exact sumTo_congr n _ _ (fun c _ => by ring)

end Sys2Proof.Machine
end

