-- ==== Sys2Proof/Tests/Slice0.lean ====
section
/-! SUPPORT. Tests against the spec's own vectors (95_test_vectors.md), the smoke test of `Fields.wf`, and for
every statement with hypotheses a state and operands that meet them. -/

namespace Sys2Proof.Tests

open Sys2Proof Sys2Proof.Machine

/-! ### Helpers -/

/-- A state with these operand registers set. -/
def State.withOps (s : State) (l : List (OpReg × Int)) : State :=
  { s with regs := l.foldl (fun g p => g.set p.1 (BitVec.ofInt 32 p.2)) s.regs }

/-- The command answered a next state that passes the check. -/
def answers (o : Host.Outcome State Fault Refusal) (f : State → Bool) : Bool :=
  match o with
  | .next t => f t
  | .fault _ => false
  | .refused _ => false

/-- The command faulted so. -/
def faultIs (o : Host.Outcome State Fault Refusal) (g : Fault) : Bool :=
  match o with
  | .next _ => false
  | .fault f => f == g
  | .refused _ => false

/-- The step was refused so. -/
def refusalIs (o : Host.Outcome State Fault Refusal) (g : Refusal) : Bool :=
  match o with
  | .next _ => false
  | .fault _ => false
  | .refused r => r == g

/-- Bytes from an address. -/
def bytesAt (m : Memory) (a n : Nat) : List Byte := (List.range n).map (fun k => m.read (a + k))

/-- `REGISTER a`, with `len` bytes from `a` handed over. -/
def registered (s : State) (a : Word) (len : Nat) : State :=
  { s with
    scratchBase := a
    status := { s.status with sv := true }
    regions := [⟨.scratch, ⟨a.toNat, len⟩⟩] }

/-- The address registers of the programs (95_test_vectors.md section 4). -/
def addresses : List (OpReg × Int) :=
  [(.inAddr, 0x1000), (.filtAddr, 0x1100), (.biasAddr, 0x1200), (.outAddr, 0x1500),
    (.multAddr, 0x1300), (.shiftAddr, 0x1400)]

/-- Program P1: 1×1, bias, two channels; no region registered. -/
def p1 : State :=
  State.withOps { State.reset with mem :=
      [(0x1000, 0x01), (0x1001, 0x02), (0x1002, 0x03), (0x1003, 0x04), (0x1004, 0xFB), (0x1005, 0x06),
        (0x1006, 0x7F), (0x1007, 0x80), (0x1100, 0x01), (0x1101, 0xFF), (0x1102, 0x02),
        (0x1103, 0x03), (0x1200, 0x0A), (0x1204, 0xEC), (0x1205, 0xFF), (0x1206, 0xFF),
        (0x1207, 0xFF), (0x1303, 0x40), (0x1307, 0x60), (0x1404, 0xFF), (0x1405, 0xFF),
        (0x1406, 0xFF), (0x1407, 0xFF)] }
    (addresses ++ [(.inDims, 0x00020002), (.inCh, 2), (.filtDims, 0x00010001),
      (.outDims, 0x00020002), (.outCh, 2), (.stride, 0x00010001), (.inZp, 5), (.outZp, 3),
      (.actMin, -128), (.actMax, 127)])

/-- Program P1 with its region of `48 + ALIGN_SLACK` bytes registered at `0x2000`. -/
def p1r : State := registered p1 0x2000 80

/-- Program P2: windowed, no bias; no region registered. -/
def p2 : State :=
  State.withOps { State.reset with mem :=
      [(0x1000, 0x01), (0x1001, 0x02), (0x1002, 0x03), (0x1003, 0x04), (0x1004, 0x05), (0x1005, 0x06),
        (0x1006, 0x07), (0x1007, 0x08), (0x1008, 0x09), (0x1100, 0x01), (0x1102, 0xFF),
        (0x1103, 0x02), (0x1300, 0xFF), (0x1301, 0xFF), (0x1302, 0xFF), (0x1303, 0x7F),
        (0x1400, 0xFF), (0x1401, 0xFF), (0x1402, 0xFF), (0x1403, 0xFF)] }
    (addresses ++ [(.inDims, 0x00030003), (.inCh, 1), (.filtDims, 0x00020002),
      (.outDims, 0x00020002), (.outCh, 1), (.stride, 0x00010001), (.inZp, -1), (.actMin, -128),
      (.actMax, 127)])

/-- Program P2 with its region of `68 + ALIGN_SLACK` bytes registered at `0x2000`. -/
def p2r : State := registered p2 0x2000 100

/-- Program P3: fallback, padding 1, bias; no region registered. -/
def p3 : State :=
  State.withOps { State.reset with mem :=
      [(0x1000, 0x0A), (0x1001, 0x14), (0x1002, 0x1E), (0x1003, 0x28), (0x1100, 0x01), (0x1101, 0x01),
        (0x1102, 0x01), (0x1103, 0x01), (0x1104, 0x02), (0x1105, 0x01), (0x1106, 0x01),
        (0x1107, 0x01), (0x1108, 0x01), (0x1200, 0x64), (0x1303, 0x40), (0x1400, 0xFE),
        (0x1401, 0xFF), (0x1402, 0xFF), (0x1403, 0xFF)] }
    (addresses ++ [(.inDims, 0x00020002), (.inCh, 1), (.filtDims, 0x00030003),
      (.outDims, 0x00020002), (.outCh, 1), (.stride, 0x00010001), (.pad, 0x00010001), (.inZp, 4),
      (.outZp, -10), (.actMin, -20), (.actMax, 20)])

/-- Program P3 with the 196 bytes of its planned size registered at `0x2000`. -/
def p3r : State := registered p3 0x2000 196

/-- Program P3 under `PREPAD = 1` (rule R174). -/
def p3w : State := { p3r with cfg := { Config.suggested with prepad := true } }

/-! ### The checks of `Fields.wf` refuse an ill-formed term each -/

theorem test_wf_reserved : (Fields.mk 0#8 false 0#2 false 1#20).wf = false := by decide
theorem test_wf_opcode : (Fields.mk 6#8 false 0#2 false 0#20).wf = false := by decide
theorem test_wf_bias_flag : (Fields.mk 1#8 true 0#2 false 0#20).wf = false := by decide
theorem test_wf_mode_used : (Fields.mk 3#8 false 1#2 false 0#20).wf = false := by decide
theorem test_wf_mode_legal : (Fields.mk 5#8 false 3#2 false 0#20).wf = false := by decide
theorem test_wf_out_flag : (Fields.mk 5#8 false 0#2 true 0#20).wf = false := by decide
theorem test_wf_accepts : (Fields.mk 5#8 false 2#2 false 0#20).wf = true := by decide

/-! ### Decoding: the words of table 30-1 and 30-2 bit by bit, bits 31:16, 15:12, O, M, B, OPC -/

theorem test_decode_nop :
    decodeWord (0#16 ++ 0#4 ++ 0b0#1 ++ 0b00#2 ++ 0b0#1 ++ 0b00000000#8) = .ok .nop := by decide
theorem test_decode_planSize :
    decodeWord (0#16 ++ 0#4 ++ 0b0#1 ++ 0b00#2 ++ 0b0#1 ++ 0b00000001#8) = .ok .planSize := by decide
theorem test_decode_setScratch :
    decodeWord (0#16 ++ 0#4 ++ 0b0#1 ++ 0b00#2 ++ 0b0#1 ++ 0b00000010#8) = .ok .setScratch := by decide
theorem test_decode_convolve :
    decodeWord (0#16 ++ 0#4 ++ 0b0#1 ++ 0b00#2 ++ 0b0#1 ++ 0b00000011#8) = .ok .convolve := by decide
theorem test_decode_convolveB :
    decodeWord (0#16 ++ 0#4 ++ 0b0#1 ++ 0b00#2 ++ 0b1#1 ++ 0b00000011#8) = .ok .convolveB := by decide
theorem test_decode_requant :
    decodeWord (0#16 ++ 0#4 ++ 0b0#1 ++ 0b00#2 ++ 0b0#1 ++ 0b00000100#8) = .ok .requant := by decide
theorem test_decode_requantO :
    decodeWord (0#16 ++ 0#4 ++ 0b1#1 ++ 0b00#2 ++ 0b0#1 ++ 0b00000100#8) = .ok .requantO := by decide
theorem test_decode_packCin :
    decodeWord (0#16 ++ 0#4 ++ 0b0#1 ++ 0b00#2 ++ 0b0#1 ++ 0b00000101#8) = .ok .packCin := by decide
theorem test_decode_packCfilt :
    decodeWord (0#16 ++ 0#4 ++ 0b0#1 ++ 0b01#2 ++ 0b0#1 ++ 0b00000101#8) = .ok .packCfilt := by decide
theorem test_decode_packPad :
    decodeWord (0#16 ++ 0#4 ++ 0b0#1 ++ 0b10#2 ++ 0b0#1 ++ 0b00000101#8) = .ok .packPad := by decide
/-- The rejected words of program P4. -/
theorem test_decode_rejects :
    decodeWord 0x00000006#32 = .error .unassignedOpcode
      ∧ decodeWord 0x00000605#32 = .error .packModeReserved
      ∧ decodeWord 0x00000101#32 = .error .flagNotUsed
      ∧ decodeWord 0x00001003#32 = .error .reservedBits := by decide

/-! ### One step of each command -/

/-- Rule R155's example: STATUS 0x42 before, 0 after, ERRLOG kept. -/
theorem test_nop :
    answers (exec .nop (p2.raise .noScratch (some .windowed)))
      (fun t => t.regRead 0x01#8 == 0 && t.regRead 0x04#8 == 4) = true := by decide
/-- Program P1: `48 + ALIGN_SLACK`, STATUS 0x20. -/
theorem test_planSize :
    answers (exec .planSize p1) (fun t => t.result == 80#32 && t.regRead 0x01#8 == 0x20#32) = true := by
  decide
/-- Vector S5: `IN_ZP = 128`. -/
theorem test_planSize_bad_shape :
    answers (exec .planSize (State.withOps p2 [(.inZp, 128)]))
      (fun t => t.regRead 0x01#8 == 3#32 && t.regRead 0x04#8 == 8#32 && t.result == 0) = true := by
  decide
/-- Rule R156's example and its removal. -/
theorem test_setScratch :
    answers (exec .setScratch (State.withOps p1 [(.scratchArg, 0x2000)]))
      (fun t => t.scratchBase == 0x2000#32 && t.regRead 0x01#8 == 0x10#32) = true := by decide
theorem test_setScratch_removes :
    answers (exec .setScratch p1r) (fun t => t.scratchBase == 0#32 && t.regRead 0x01#8 == 0) = true := by
  decide
/-- Program P2's output bytes, as the windowed path computes them. -/
theorem test_convolve_bytes :
    (List.range 4).map (p2r.outByte false .windowed) = [0x03, 0x04, 0x06, 0x07] := by decide
/-- Program P2 with no region registered: STATUS 0x42, nothing written. -/
theorem test_convolve_no_scratch :
    answers (exec .convolve p2) (fun t => t.regRead 0x01#8 == 0x42#32 && t.mem == p2.mem) = true := by
  decide
/-- Program P3 on the fallback path: 19, then three bytes clamped to 20; STATUS 0x60. -/
theorem test_convolveB_fallback :
    answers (exec .convolveB p3)
      (fun t => bytesAt t.mem 0x1500 4 == [0x13, 0x14, 0x14, 0x14] && t.regRead 0x01#8 == 0x60#32) = true := by decide
/-- Program P1's output bytes, as the 1×1 path computes them. -/
theorem test_convolveB_bytes :
    (List.range 8).map (p1r.outByte true .oneByOne)
      = [0x08, 0x08, 0x08, 0x0C, 0x02, 0x08, 0x7F, 0xD4] := by decide
/-- Vector Q9: the tie of the right shift goes away from zero. -/
theorem test_requant :
    answers (exec .requant (State.withOps p1 [(.rqAcc, -5), (.rqMult, 0x7FFFFFFF), (.rqShift, -1)]))
      (fun t => t.result == 0xFFFFFFFD#32) = true := by decide
/-- Vector Q4: an exact negative tie, under both settings. -/
theorem test_requant_tie : rq (.tied .away) (-1) 0x40000000 0 = some (-1) ∧ rq (.tied .up) (-1) 0x40000000 0 = some 0 := by
  decide
/-- Vector O9: the byte 0xC8, sign-extended. -/
theorem test_requantO :
    answers (exec .requantO (State.withOps State.reset [(.rqAcc, 200), (.rqMult, 0x7FFFFFFF),
      (.actMax, 255)])) (fun t => t.result == 0xFFFFFFC8#32) = true := by decide
/-- Vector O10. -/
theorem test_requantO_bad :
    answers (exec .requantO (State.withOps State.reset [(.rqAcc, 7), (.actMin, 6), (.actMax, 5)]))
      (fun t => t.regRead 0x01#8 == 3#32 && t.regRead 0x04#8 == 8#32) = true := by decide
/-- Vector B1. -/
theorem test_packCin :
    answers (exec .packCin p1r) (fun t => t.result == 0x2000#32
      && bytesAt t.mem 0x2000 32 == [1, 2, 0, 0, 0, 0, 0, 0, 3, 4, 0, 0, 0, 0, 0, 0, 0xFB, 6, 0, 0, 0, 0, 0, 0,
        0x7F, 0x80, 0, 0, 0, 0, 0, 0]) = true := by decide
/-- Vector B2. -/
theorem test_packCfilt :
    answers (exec .packCfilt p1r) (fun t =>
      bytesAt t.mem 0x2000 16 == [1, 0xFF, 0, 0, 0, 0, 0, 0, 2, 3, 0, 0, 0, 0, 0, 0]) = true := by decide
/-- Vector B3. -/
theorem test_packPad :
    answers (exec .packPad p3r) (fun t => bytesAt t.mem 0x2000 16 == [0xFC, 0xFC, 0xFC, 0xFC, 0xFC, 0x0A,
      0x14, 0xFC, 0xFC, 0x1E, 0x28, 0xFC, 0xFC, 0xFC, 0xFC, 0xFC]) = true := by decide
/-- Vector B12: the destination wraps. -/
theorem test_packCin_wraps :
    answers (exec .packCin (registered p1 0xFFFFFFF0 16)) (fun t => t.regRead 0x01#8 == 0x35#32) = true := by
  decide

/-- A state whose host makes these accesses next. -/
def hosted (s : State) (l : List HostAction) : State := { s with host := l }

/-! ### Witnesses: each meets all hypotheses of the statement it is named after -/

/-- `CmdWriteRunsTheTenWordsAndRejectsAllOthers`: every arm, and an illegal word next to each bound. -/
theorem witness_cmd_write (v : Word)
    (_ : v ∈ [0#32, 1#32, 2#32, 3#32, 0x103#32, 4#32, 0x804#32, 5#32, 0x205#32, 0x405#32, 6#32, 0xFFFFFFFF#32]) :
    (hosted p1r [.regWrite 0#8 v]).host = .regWrite 0#8 v :: [] := rfl

/-- `IllegalWordChangesOnlyStatusAndErrlog`: one word for each clause alone. -/
theorem witness_illegal_words :
    bits 0x00000006#32 7 0 > 5 ∧ bits 0x000000FF#32 7 0 > 5 ∧ bits 0x00001003#32 31 12 ≠ 0
      ∧ bits 0x80000000#32 31 12 ≠ 0 ∧ (bits 0x00000100#32 8 8 = 1 ∧ bits 0x00000100#32 7 0 ≠ 3)
      ∧ (bits 0x00000203#32 10 9 ≠ 0 ∧ bits 0x00000203#32 7 0 ≠ 5)
      ∧ (bits 0x00000803#32 11 11 = 1 ∧ bits 0x00000803#32 7 0 ≠ 4)
      ∧ (bits 0x00000605#32 7 0 = 5 ∧ bits 0x00000605#32 10 9 = 3) := by decide

/-- `StepRunsTheDecodedCommand`. -/
theorem witness_step_runs :
    (hosted p2r [stmtCmd .convolve, .reset]).host = .regWrite 0#8 3#32 :: [.reset]
      ∧ decodeWord 3#32 = .ok .convolve ∧ p2r.host = [] := by decide

/-- `NopClearsErrAndPathOnly`. -/
theorem witness_nop : p2.status.sv = false ∧ answers (exec .nop p2) (fun _ => true) = true := by decide

/-- `SetScratchRegistersReplacesOrRemoves`: both clauses, a replacement and the largest operand. -/
theorem witness_setScratch :
    (State.withOps p1r [(.scratchArg, -1)]).regs.scratchArg ≠ 0 ∧ p1r.regs.scratchArg = 0 := by decide

/-- `RegisterAndUnregisterSetTheSlot`. -/
theorem witness_register :
    (hosted p1r (stmtRegister 1#32 ++ [.reset])).host = stmtRegister 1#32 ++ [.reset] ∧ (1#32 ≠ 0)
      ∧ (hosted p1r (stmtUnregister ++ [])).host = stmtUnregister ++ [] := by decide

/-- The planned size of P1's shape with this slack, for the bound of `ERR_RANGE`. -/
def slackState (s : State) (n : Nat) : State := { s with cfg := { Config.suggested with alignSlack := n } }

/-- A 1×1×1 input with a padding of 32768: the padded copy alone, `65537^2` bytes, is above 32 bits
(rule R149). -/
def hugePlan : State :=
  State.withOps p1r [(.inDims, 0x00010001), (.inCh, 1), (.outDims, 0x00010001), (.outCh, 1), (.pad, 0x80008000)]

/-- Rules R149 and R162 at the bound: P3, on the fallback route, with a planned size of `2^32` and one byte
less, stops its PACK at the first only and its CONVOLVE at neither; P1, on a fast path, stops its CONVOLVE;
and a PACK whose own output is short. -/
theorem witness_plan_bound :
    (answers (exec .packPad (slackState p3r 4294967132)) (fun t => t.status.err == some .range) = true
        ∧ answers (exec .packPad (slackState p3r 4294967131)) (fun t => t.status.err == none) = true
        ∧ answers (exec .convolveB (slackState p3r 4294967132)) (fun t => t.status.err == none) = true
        ∧ answers (exec .convolveB (slackState p1r 4294967248)) (fun t => t.status.err == some .range) = true)
      ∧ ((slackState p3r 4294967132).route = .fallback ∧ (slackState p3r 4294967132).plannedSize = 2 ^ 32)
      ∧ answers (exec .packCin hugePlan) (fun t => t.status.err == some .range && t.mem == p1r.mem) = true
      ∧ (hugePlan.shape.valid = true ∧ hugePlan.shape.packLen .cin = 16) := by decide

/-- `PlanSizeReturnsTheSizeTermsOfTheClass`: both classes, the largest size that fits and the next, and the
spelled forms on each route. -/
theorem witness_planSize :
    p1.shape.valid = true ∧ p1.shape.is1x1 = true
      ∧ (slackState p1 4294967247).plannedSize = 2 ^ 32 - 1 ∧ (slackState p1 4294967248).plannedSize = 2 ^ 32
      ∧ p3.shape.valid = true ∧ p3.shape.is1x1 = false ∧ p3.plannedSize = 196
      ∧ (spelledRoute p1 = .oneByOne ∧ spelledRoute p2 = .windowed ∧ spelledRoute p3 = .fallback
        ∧ spelledRoute p3w = .windowed)
      ∧ (spelledSize p1 = 80 ∧ spelledSize p3 = 196 ∧ spelledSize (slackState p1 4294967248) = 2 ^ 32) := by
  decide

/-- `PlanSizeDependsOnTheShapeRegistersOnly`: two states that differ in memory and in an address. -/
theorem witness_planSize_pure :
    (let t := State.withOps { p1r with mem := [], result := 7 } [(.inAddr, 5), (.dilation, 9)];
     p1.cfg = t.cfg ∧ p1.regs.inDims = t.regs.inDims ∧ p1.regs.inCh = t.regs.inCh
      ∧ p1.regs.filtDims = t.regs.filtDims ∧ p1.regs.outDims = t.regs.outDims
      ∧ p1.regs.outCh = t.regs.outCh ∧ p1.regs.stride = t.regs.stride ∧ p1.regs.pad = t.regs.pad
      ∧ p1.regs.inZp = t.regs.inZp ∧ p1.regs.outZp = t.regs.outZp ∧ p1.regs.actMin = t.regs.actMin
      ∧ p1.regs.actMax = t.regs.actMax ∧ p1 ≠ t) := by decide

/-- A REQUANT's operands. -/
def rqState (acc m sh : Int) : State := State.withOps State.reset [(.rqAcc, acc), (.rqMult, m), (.rqShift, sh)]

/-- `RequantInDomainReturnsTheRoundedProduct`: both shift bounds, the largest multiplier, the smallest
pre-shifted accumulator (vectors Q13, Q16, Q18). -/
theorem witness_requant_in :
    ∀ s ∈ [rqState (-1073741824) 2147483647 (-31), rqState (-1) 2147483647 31, rqState (-2147483648) 0 0],
      requantDomain s.regs.rqAcc.toInt s.regs.rqMult.toInt s.regs.rqShift.toInt := by unfold requantDomain; decide

/-- `RequantOutsideDomainReturnsAFreeWord`: vectors Q51 to Q56. -/
theorem witness_requant_out :
    ∀ s ∈ [rqState 1 2147483647 31, rqState 5 (-2147483648) 0, rqState 5 (-1) 0, rqState 5 1073741824 (-32),
        rqState 0 1073741824 32, rqState 2147483647 1073741824 1],
      ¬ requantDomain s.regs.rqAcc.toInt s.regs.rqMult.toInt s.regs.rqShift.toInt := by unfold requantDomain; decide

/-- `RequantOReturnsTheClampedByte`: the bounds of the zero point, `AMIN = AMAX`, a value (vector O8) and a
sum that leaves 32 bits (vector O12). -/
theorem witness_requantO :
    (∀ s ∈ [State.withOps State.reset [(.outZp, -128), (.actMin, 5), (.actMax, 5)],
        State.withOps State.reset [(.outZp, 127), (.actMin, 5), (.actMax, 5)]],
      -128 ≤ s.shape.ozp ∧ s.shape.ozp ≤ 127 ∧ s.shape.amin ≤ s.shape.amax)
      ∧ (requantDomain 7 2147483647 0 ∧ requantResult (.tied .away) 7 2147483647 0 = 7)
      ∧ (requantDomain 2147483647 2147483647 0
        ∧ ¬ requantResult (.tied .away) 2147483647 2147483647 0 + 127 ≤ 2147483647) := by
  unfold requantDomain requantResult; decide

/-- `RequantORejectsBadOutputOperands`: each clause at its bound. -/
theorem witness_requantO_bad :
    (State.withOps State.reset [(.outZp, -129)]).shape.ozp < -128
      ∧ (State.withOps State.reset [(.outZp, 128)]).shape.ozp > 127
      ∧ (State.withOps State.reset [(.actMin, 6), (.actMax, 5)]).shape.amin
        > (State.withOps State.reset [(.actMin, 6), (.actMax, 5)]).shape.amax := by decide

/-- The requantizer's laws: zero operands, an ordered pair, no shift, a pair of signs, a negative tie, and
the operands that saturate `MULH`. -/
theorem witness_requant_laws :
    mulh (.tied .up) (-2147483648) (-2147483648) = 2147483647 ∧ requantDomain (-12345) 0 5 ∧ requantDomain 0 2147483647 31
      ∧ (requantDomain (-3) 1073741824 0 ∧ requantDomain 3 1073741824 0)
      ∧ (requantDomain 1000 1395864371 (-9) ∧ requantDomain (-1000) 1395864371 (-9))
      ∧ (requantDomain (-1) 1073741824 0
        ∧ requantResult (.tied .away) (-1) 1073741824 0 ≠ requantResult (.tied .up) (-1) 1073741824 0) := by
  unfold requantDomain requantResult; decide

/-- `RoundingShiftMatchesItsBitForm`: shifts 0, 1 and 31 at the tie of the last (vectors Q12 to Q14). -/
theorem witness_rounding_shift :
    fitsI32 (-2147483648) = true ∧ fitsI32 2147483647 = true ∧ rha (-5) 0 = -5 ∧ rha (-5) 1 = -3
      ∧ rha 1073741824 31 = 1 ∧ rha (-1073741824) 31 = -1 ∧ rha 1073741823 31 = 0 := by decide

/-- `OutputByteLiesInTheActivationInterval` and `ClampIsIdempotent`: the bounds of the interval, and a sum
outside 32 bits. -/
theorem witness_out8 :
    out8 200 0 (-128) 127 = some 0x7F ∧ out8 (-200) 0 (-128) 127 = some 0x80
      ∧ out8 2147483646 127 (-128) 127 = none := by decide

/-- `ShapeViolationsRaiseErrShape`: a shape for each clause that can hold (vectors S1 to S7; with 16-bit
fields the second cannot, rule R160), and the valid shape S8. -/
theorem witness_shape_violations :
    (State.withOps p2 [(.outCh, 0)]).shape.oc = 0 ∧ (State.withOps p2 [(.stride, 0x00010000)]).shape.sw = 0
      ∧ (State.withOps p2 [(.filtDims, 0x00040004)]).shape.fw
        > (State.withOps p2 [(.filtDims, 0x00040004)]).shape.iw
      ∧ ((State.withOps p2 [(.outDims, 0x00030003)]).shape.ow - 1)
          * (State.withOps p2 [(.outDims, 0x00030003)]).shape.sw + p2.shape.fw > p2.shape.iw
      ∧ (State.withOps p2 [(.inZp, 128)]).shape.izp > 127
      ∧ (State.withOps p2 [(.inZp, -129)]).shape.izp < -128
      ∧ (State.withOps p2 [(.actMin, 1), (.actMax, 0)]).shape.amin > 0
      ∧ (State.withOps p2 [(.filtDims, 0x00040004), (.pad, 0x00010001), (.outDims, 0x00020002)]).shape.valid
        = true ∧ Instr.convolve ∈ shapeCommands := by decide

/-- `ConvolveRaisesErrRangeForBuffersThatWrap`: each clause one byte above the bound, and P1 and P2, whose
buffers fit. -/
theorem witness_range :
    rangeViolation (State.withOps p1r [(.inAddr, 0xFFFFFFF9)]) true .oneByOne
      ∧ rangeViolation (State.withOps p1r [(.filtAddr, 0xFFFFFFFD)]) true .oneByOne
      ∧ rangeViolation (State.withOps p1r [(.outAddr, 0xFFFFFFF9)]) true .oneByOne
      ∧ rangeViolation (State.withOps p1r [(.multAddr, 0xFFFFFFFC)]) true .oneByOne
      ∧ rangeViolation (State.withOps p1r [(.shiftAddr, 0xFFFFFFFC)]) true .oneByOne
      ∧ rangeViolation (State.withOps p1r [(.biasAddr, 0xFFFFFFFC)]) true .oneByOne
      ∧ rangeViolation (slackState p1 4294967248) true .oneByOne
      ∧ rangeViolation (registered p1 0xFFFFFFB1 80) true .oneByOne
      ∧ ¬ rangeViolation (registered p1 0xFFFFFFB0 80) true .oneByOne
      ∧ ¬ rangeViolation p3 true .fallback ∧ ¬ rangeViolation (slackState p3 4294967132) true .fallback
      ∧ ((Instr.convolveB, true) ∈ convolveForms ∧ p1r.shape.valid = true ∧ p1r.route = .oneByOne) := by
  refine ⟨?_, ?_, ?_, ?_, ?_, ?_, ?_, ?_, ?_, ?_, ?_, by decide⟩ <;> (unfold rangeViolation; decide)

/-- `ConvolveRaisesErrAlignForMisalignedArrays`: each array off by one byte. -/
theorem witness_align :
    (∀ r ∈ [OpReg.multAddr, .shiftAddr, .biasAddr],
      ¬ rangeViolation (State.withOps p1r [(r, 0x1301)]) true (State.withOps p1r [(r, 0x1301)]).route
        ∧ (State.withOps p1r [(r, 0x1301)]).shape.valid = true
        ∧ (State.withOps p1r [(r, 0x1301)]).convMisaligned true = true)
      ∧ (State.withOps p1r [(.biasAddr, 0x1301)]).convMisaligned false = false := by
  unfold rangeViolation; decide

/-- `UnregisteredScratchStopsTheFastPathsOnly`: both fast paths and the fallback. -/
theorem witness_unregistered :
    (¬ rangeViolation p1 true p1.route ∧ p1.shape.valid = true ∧ p1.convMisaligned true = false
        ∧ p1.route = .oneByOne ∧ p1.status.sv = false)
      ∧ (¬ rangeViolation p2 false p2.route ∧ p2.shape.valid = true ∧ p2.convMisaligned false = false
        ∧ p2.route = .windowed ∧ p2.status.sv = false)
      ∧ p3.shape.valid = true ∧ p3.route = .fallback := by unfold rangeViolation; decide

/-- P1 with the output over the last input byte, over the first scratch byte, and with the scratch
footprint's last byte on the first input byte. -/
def aliased : List State :=
  [State.withOps p1r [(.outAddr, 0x1007)], State.withOps p1r [(.outAddr, 0x1FF9)], registered p1 0x0FB1 80]

/-- `AliasedConvolveFaults`: the three ways, one byte shared each. -/
theorem witness_aliased :
    (∀ s ∈ aliased, s.shape.valid = true ∧ ¬ rangeViolation s true s.route ∧ s.convMisaligned true = false
        ∧ s.status.sv = true ∧ faultIs (exec .convolveB s) .aliasedBuffers = true)
      ∧ ((State.withOps p1r [(.outAddr, 0x1007)]).outRange.has 0x1007 = true ∧ p1r.inRange.has 0x1007 = true)
      ∧ ((State.withOps p1r [(.outAddr, 0x1FF9)]).outRange.has 0x2000 = true
        ∧ p1r.scratchRange.has 0x2000 = true)
      ∧ ((registered p1 0x0FB1 80).scratchRange.has 0x1000 = true ∧ p1.inRange.has 0x1000 = true) := by
  unfold rangeViolation; decide

/-- `BuffersOnForeignOrDeviceMemoryFault`: one byte of the input, and one of the output. -/
theorem witness_foreign :
    (∀ k ∈ [(RegionKind.notOwned, Fault.bufferNotOwned), (.sideEffects, .bufferHasSideEffects)],
      ∀ a ∈ [0x1007, 0x1500],
        faultIs (exec .convolveB { p1r with regions := ⟨k.1, ⟨a, 1⟩⟩ :: p1r.regions }) k.2 = true)
      ∧ unaliased (p1r.convReads true) ([p1r.outRange] ++ p1r.convScratch p1r.route) = true := by decide

/-- `UndersizedScratchFaults`: exactly the planned size in two parts, and one byte less. -/
theorem witness_undersized :
    (unaliased (p1r.convReads true) [p1r.outRange, p1r.scratchRange] = true ∧ needsScratch p1r.route = true)
      ∧ { p1r with regions := [⟨.scratch, ⟨0x2028, 40⟩⟩, ⟨.scratch, ⟨0x2000, 40⟩⟩] }.handedOver
          p1r.scratchRange = true
      ∧ faultIs (exec .convolveB { p1r with regions := [⟨.scratch, ⟨0x2000, 79⟩⟩] }) .scratchNotHandedOver
        = true
      ∧ answers (exec .convolveB { p1r with regions := ⟨.notOwned, ⟨0x2050, 1⟩⟩ :: p1r.regions })
          (fun t => t.status.err == none) = true := by decide

/-! The paths, by route: 1×1, windowed, fallback, and windowed on a padded copy (`PREPAD = 1`). -/

/-- `EveryPathComputesTheReferenceAccumulator` and `SmallFilterVolumesCannotOverflow`: an element on each
route, the last one of each tensor. -/
theorem witness_paths :
    (p1r.shape.valid = true ∧ p1r.route = .oneByOne ∧ 1 < p1r.shape.oh ∧ 1 < p1r.shape.ow ∧ 1 < p1r.shape.oc)
      ∧ (p2r.shape.valid = true ∧ p2r.route = .windowed ∧ 1 < p2r.shape.oh ∧ 1 < p2r.shape.ow)
      ∧ (p3.shape.valid = true ∧ p3.route = .fallback ∧ 1 < p3.shape.oh ∧ 0 < p3.shape.oc)
      ∧ (p3w.shape.valid = true ∧ p3w.route = .windowed ∧ p3w.shape.fw * p3w.shape.fh * p3w.shape.ic = 9)
      ∧ ((State.withOps p1 [(.inCh, 65535)]).shape.valid = true
        ∧ (State.withOps p1 [(.inCh, 65535)]).shape.fw * (State.withOps p1 [(.inCh, 65535)]).shape.fh
          * (State.withOps p1 [(.inCh, 65535)]).shape.ic = 65535) := by decide

/-- `ReferenceElementIsTheSpecsFormula`: element (0,0) of P3 is defined and is 19 (0x13); with a multiplier
below 0 it is not defined. -/
theorem witness_reference_element :
    p3.convElem true 0 0 0 = some 0x13
      ∧ { p3 with mem := p3.mem.write 0x1303 0x80 }.convElem true 0 0 0 = none := by decide

/-- `ConvolveWritesTheReferenceOutput`: ready on each route, with an element whose terms fit and a byte
outside both footprints. -/
theorem witness_convolve :
    p1r.convReady true ∧ p2r.convReady false ∧ p3.convReady true ∧ p3w.convReady true
      ∧ (p1r.pathTermsFit p1r.route 1 1 1 = true ∧ p1r.convElem true 1 1 1 = some 0xD4)
      ∧ (p1r.outRange.has 0x1508 = false ∧ p1r.scratchRange.has 0x1508 = false)
      ∧ ((Instr.convolveB, true) ∈ convolveForms ∧ (Instr.convolve, false) ∈ convolveForms) := by
  unfold State.convReady; decide

/-- P1 with the first multiplier negative: its elements of channel 0 are free. -/
def p1free : State := { p1r with mem := p1r.mem.write 0x1303 0x80 }

/-- `ConvolveLeavesFreeValuesWhereNoneIsPromised`. -/
theorem witness_free_values :
    p1free.convReady true ∧ p1free.pathElem true p1free.route 0 0 0 = none
      ∧ needsScratch p1free.route = true ∧ 0 < p1free.plannedSize := by unfold State.convReady; decide

/-- `OutputDependsOnShapeFlagAndBuffersOnly`: P3 on the fallback route and on the padded copy, with another
STATUS and SCRATCH_BASE; the terms of every element fit on both. -/
theorem witness_output_function :
    p3.shape = p3w.shape ∧ p3.cfg.mulh = p3w.cfg.mulh ∧ p3.shape.valid = true ∧ p3.mem = p3w.mem
      ∧ p3.regs = p3w.regs ∧ p3.route ≠ p3w.route
      ∧ (p3.pathTermsFit p3.route 1 1 0 = true ∧ p3w.pathTermsFit p3w.route 1 1 0 = true) := by decide

/-- `PackCinChannelPadsTheInput`, `PackCfiltChannelPadsTheFilter`, `PackPadWritesTheBorderedInput`. -/
theorem witness_pack :
    (p1r.packReady .cin ∧ 1 < p1r.shape.ih ∧ 1 < p1r.shape.iw ∧ 7 < p1r.shape.rc ∧ p1r.shape.ic ≤ 7)
      ∧ (p1r.packReady .cfilt ∧ 1 < p1r.shape.oc)
      ∧ (p3r.packReady .pad ∧ p3r.shape.ih + 2 * p3r.shape.ph = 4)
      ∧ (p1r.packRange .cin).has 0x2020 = false := by unfold State.packReady; decide

/-- `PackRaisesItsErrorsInOrder`: each clause, the destination one byte above the bound. -/
theorem witness_pack_errors :
    (State.withOps p3r [(.inZp, -128)]).shape.izp = -128 ∧ (State.withOps p3r [(.inZp, -128)]).shape.valid = true
      ∧ ((State.withOps p1r [(.inAddr, 0xFFFFFFF9)]).regs.inAddr.toNat
          + p1r.shape.ih * p1r.shape.iw * p1r.shape.ic > 2 ^ 32)
      ∧ ((registered p1 0xFFFFFFF0 16).packDst + (registered p1 0xFFFFFFF0 16).shape.packLen .cin > 2 ^ 32)
      ∧ (p1.status.sv = false ∧ p1.packOutOfRange .cin = false ∧ p1.shape.valid = true)
      ∧ (Instr.packPad, PackMode.pad) ∈ packForms := by decide

/-- `PackContractBreachesFault`: a destination that meets its source in one byte, one byte of the source or
of the destination on foreign and on device memory, and a destination that was not handed over in full. -/
theorem witness_pack_faults :
    (∀ k ∈ [(RegionKind.notOwned, Fault.bufferNotOwned), (.sideEffects, .bufferHasSideEffects)],
      ∀ a ∈ [0x1007, 0x201F],
        faultIs (exec .packCin { p1r with regions := ⟨k.1, ⟨a, 1⟩⟩ :: p1r.regions }) k.2 = true)
      ∧ (∀ s ∈ [State.withOps p1r [(.inAddr, 0x201F)]], s.packOutOfRange .cin = false ∧ s.shape.valid = true
        ∧ (s.packSource .cin).has 0x201F = true ∧ (s.packRange .cin).has 0x201F = true
        ∧ faultIs (exec .packCin s) .aliasedBuffers = true)
      ∧ faultIs (exec .packCin { p1r with regions := [⟨.scratch, ⟨0x2000, 31⟩⟩] }) .scratchNotHandedOver = true
      ∧ answers (exec .packCin { p1r with regions := [⟨.scratch, ⟨0x2000, 32⟩⟩] })
          (fun t => t.status.err == none) = true := by decide

/-- `PlannedRegionHoldsThePackedCopy`: each clause, from a base just above a boundary. -/
theorem witness_planned_region :
    (p1.shape.valid = true ∧ p1.cfg.legal = true ∧ p1.shape.is1x1 = true ∧ roundup p1.shape.ic 8 ≠ p1.shape.ic)
      ∧ (p2.shape.valid = true ∧ p2.shape.is1x1 = false)
      ∧ (p3.shape.valid = true ∧ p3.shape.unpadded = false)
      ∧ (registered p1 0x2001 80).packDst = 0x2010 := by decide

/-- `ChannelPaddingChangesNoDotProduct`. -/
theorem witness_channel_padding :
    p1.shape.valid = true ∧ p1.shape.is1x1 = true ∧ 1 < p1.shape.ih ∧ 1 < p1.shape.iw ∧ 1 < p1.shape.oc := by
  decide

/-- The host's register accesses: `OperandRegisterWriteThenRead` at the first and the last index and at a
register that has reserved bits, and `ReadOnlyAndUnmappedWritesAreIgnored` and `RegisterReadChangesNothing` at the bounds
of their ranges. -/
theorem witness_register_access (v : Word) :
    ((0x08#8, OperandRegs.inDims) ∈ operandRegisters ∧ (0x09#8, OperandRegs.inCh) ∈ operandRegisters
        ∧ (0x1D#8, OperandRegs.rqShift) ∈ operandRegisters)
      ∧ (hosted p1 [.regWrite 0x09#8 v]).host = .regWrite 0x09#8 v :: []
      ∧ (hosted p1 [.regRead 0xFF#8, .reset]).host = .regRead 0xFF#8 :: [.reset]
      ∧ (∀ i ∈ [1#8, 7#8], 1 ≤ i.toNat ∧ i.toNat ≤ 7) ∧ (∀ i ∈ [0x1E#8, 0xFF#8], 0x1E ≤ i.toNat)
      ∧ (∀ i ∈ [5#8, 7#8], 5 ≤ i.toNat ∧ i.toNat ≤ 7) :=
  ⟨by simp [operandRegisters], rfl, rfl, by decide, by decide, by decide⟩

/-- `NarrowRegisterAccessIsRefused`: an aligned word access, a misaligned and a narrow one. -/
theorem witness_bus_access :
    (4 = 4 ∧ (0x3FC#10).toNat % 4 = 0) ∧ ¬ (4 = 4 ∧ (0x3FD#10).toNat % 4 = 0)
      ∧ refusalIs (step (hosted p1 [.busWrite 0x20#10 2 7#32])) .registerAccessNotWord = true
      ∧ refusalIs (step (hosted p1 [.busRead 0x21#10 4])) .registerAccessNotWord = true := by decide

/-- `HostStoreThenLoadReturnsTheByte`: plain memory, and a byte of each other kind. -/
theorem witness_host_memory :
    (hosted p1 [.memWrite 0xFFFFFFFF#32 7#8, .memRead 0xFFFFFFFF#32]).host
        = .memWrite 0xFFFFFFFF#32 7#8 :: .memRead 0xFFFFFFFF#32 :: []
      ∧ (∀ k ∈ [RegionKind.notOwned, .sideEffects],
          refusalIs (step { hosted p1 [.memWrite 5#32 7#8] with regions := [⟨k, ⟨5, 1⟩⟩] })
            .hostAccessNotPlain = true)
      ∧ answers (step (hosted p1r [.memWrite 0x2000#32 7#8])) (fun t => t.mem.read 0x2000 == 7) = true := by
  decide

/-- `FailedCommandChangesOnlyStatusAndErrlog` and `ErrlogBitsAreStickyUntilReset`: a command that fails and,
after it, a step that keeps its bit. -/
theorem witness_failed_command :
    answers (runCommand 3#32 p2) (fun t => t.status.err == some .noScratch) = true
      ∧ answers (runCommand 6#32 p2) (fun t => t.status.err == some .illegalCmd) = true
      ∧ answers (step (hosted (p2.raise .range none) [.regWrite 0#8 0#32]))
          (fun t => (t.regRead 0x04#8).getLsbD 5) = true := by decide

/-- The frames of `exec`: `OnlySetScratchWritesTheRegistrationSlot` and
`ResultAndMemoryAreWrittenOnlyByTheirCommands` for a command of each kind. -/
theorem witness_frames :
    ∀ i ∈ [Instr.nop, .planSize, .setScratch, .convolveB, .requant, .requantO, .packCin, .packCfilt, .packPad],
      answers (exec i p3r) (fun _ => true) = true := by decide

/-- `ResetZeroesEveryRegisterAndKeepsMemory`. -/
theorem witness_reset : (hosted p1r [.reset, .regRead 2#8]).host = .reset :: [.regRead 2#8] := rfl

/-- `MidCommandResetLosesOnlyTheFootprint`: a CONVOLVE, a PACK and a PLAN_SIZE interrupted by a reset. -/
theorem witness_mid_reset :
    (p1r.convReady true ∧ p1r.packReady .cin)
      ∧ answers (step (hosted p1r [.resetDuring (encode .convolveB)])) (fun t => t.status.err == none) = true
      ∧ answers (step (hosted p1r [.resetDuring (encode .packCin)])) (fun t => t.result == 0) = true
      ∧ answers (step (hosted p1r [.resetDuring (encode .planSize)])) (fun t => t.mem == p1r.mem) = true := by
  unfold State.convReady State.packReady; decide

/-- `EveryStepKeepsTheInvariant`: a state of the invariant that is not reset's, and its step. -/
theorem witness_invariant :
    p1r.Inv ∧ answers (step (hosted p1r [.regWrite 0#8 0x103#32])) (fun t => t.status.path == some .oneByOne) = true := by
  constructor
  · exact ⟨by decide, by decide, (by intro c h; cases h), by decide, by decide, by decide, by decide⟩
  · decide

end Sys2Proof.Tests
end

section
/-! SUPPORT. The register indices one by one (rules R21 to R24), and what each register access of the host
does to the state. -/

namespace Sys2Proof.Machine

/-- The register found at an index has that index. -/
theorem index_of_ofIndex {idx : BitVec 8} {r : Reg} (h : Reg.ofIndex idx = some r) : idx = r.index := by
  have hall : ∀ j : BitVec 8, (Reg.ofIndex j).all (fun q => decide (j = q.index)) = true := by decide
  simpa [h] using hall idx

/-- No two registers share an index. -/
theorem index_injective : Function.Injective Reg.index := by
  intro r q h
  have hr := ofIndex_index r
  rw [h, ofIndex_index q] at hr
  exact (Option.some.inj hr).symm

theorem opReg_index_range (r : OpReg) : 8 ≤ r.index.toNat ∧ r.index.toNat ≤ 0x1D := by
  cases r <;> decide

/-- The registers below the operand registers stand at 0 to 4. -/
theorem reg_index_range (r : Reg) :
    r.index.toNat ≤ 4 ∨ (8 ≤ r.index.toNat ∧ r.index.toNat ≤ 0x1D) := by
  cases r with
  | op r => exact .inr (opReg_index_range r)
  | cmd | status | result | scratchBase | errlog => exact .inl (by decide)

/-- Indices 5 to 7 and from 0x1E on hold no register (rule R23). -/
theorem ofIndex_unmapped {idx : BitVec 8} (h : (5 ≤ idx.toNat ∧ idx.toNat ≤ 7) ∨ 0x1E ≤ idx.toNat) :
    Reg.ofIndex idx = none := by
  cases hr : Reg.ofIndex idx with
  | none => rfl
  | some r =>
    have hrange := reg_index_range r
    rw [← index_of_ofIndex hr] at hrange
    omega

/-- An unmapped index reads 0 (rule R22). -/
theorem regRead_unmapped (s : State) {idx : BitVec 8}
    (h : (5 ≤ idx.toNat ∧ idx.toNat ≤ 7) ∨ 0x1E ≤ idx.toNat) : s.regRead idx = 0 := by
  unfold State.regRead
  rw [ofIndex_unmapped h]

/-- The names of the operand registers in the order of their indices. -/
def operandNames : List OpReg :=
  [.inDims, .inCh, .filtDims, .outDims, .outCh, .stride, .pad, .dilation, .inZp, .outZp, .actMin, .actMax,
    .inAddr, .filtAddr, .biasAddr, .outAddr, .multAddr, .shiftAddr, .scratchArg, .rqAcc, .rqMult, .rqShift]

theorem operandRegisters_eq_map :
    operandRegisters = operandNames.map (fun r => (r.index, fun g => g.get r)) := rfl

/-- Each row of the table of operand registers is a register's index and its field. -/
theorem exists_of_mem_operandRegisters {idx : BitVec 8} {field : OperandRegs → Word}
    (h : (idx, field) ∈ operandRegisters) : ∃ r : OpReg, idx = r.index ∧ ∀ g, field g = g.get r := by
  rw [operandRegisters_eq_map, List.mem_map] at h
  obtain ⟨r, -, hr⟩ := h
  cases hr
  exact ⟨r, rfl, fun _ => rfl⟩

/-- Only IN_CH and OUT_CH have reserved bits, 31:16 (rule R24). -/
theorem and_mask (r : OpReg) (v : Word) :
    v &&& r.mask = if r.index = 0x09#8 ∨ r.index = 0x0C#8 then v &&& 0x0000FFFF#32 else v := by
  have hfull : v &&& 0xFFFFFFFF#32 = v := BitVec.and_allOnes
  cases r <;> simp [OpReg.mask, OpReg.index, hfull]

theorem regStore_operand (s : State) (r : OpReg) (v : Word) :
    s.regStore r.index v = { s with regs := s.regs.set r v } := by
  unfold State.regStore
  rw [show Reg.ofIndex r.index = some (.op r) from ofIndex_index (.op r)]

/-- A write of an index that is no operand register's is ignored (rules R21, R23). -/
theorem regStore_ignored (s : State) {idx : BitVec 8} (v : Word) (h : ∀ r : OpReg, idx ≠ r.index) :
    s.regStore idx v = s := by
  unfold State.regStore
  split
  · next r hr => exact absurd (index_of_ofIndex hr) (h r)
  all_goals rfl

/-- A write of an index other than CMD's runs no command. -/
theorem step_regWrite {s : State} {idx : BitVec 8} {v : Word} {rest : List HostAction}
    (h : s.host = .regWrite idx v :: rest) (hidx : idx ≠ 0#8) :
    step s = .next (({ s with host := rest } : State).regStore idx v) := by
  rw [step_cons h]
  exact if_neg hidx

theorem step_regRead {s : State} {idx : BitVec 8} {rest : List HostAction} (h : s.host = .regRead idx :: rest) :
    step s = .next { s with host := rest, hostRead := s.regRead idx } := by
  rw [step_cons h]
  rfl

/-- A change of one operand register and of the host's accesses shows at no other index. -/
theorem regRead_set_other (s : State) (r : OpReg) (v : Word) (rest : List HostAction) {j : BitVec 8}
    (hj : j ≠ r.index) :
    State.regRead { s with regs := s.regs.set r v, host := rest } j = s.regRead j := by
  unfold State.regRead
  cases hq : Reg.ofIndex j with
  | none => rfl
  | some q =>
    cases q with
    | op q =>
      have hne : q ≠ r := by
        rintro rfl
        exact hj (index_of_ofIndex hq)
      exact operand_get_set_other s.regs v hne
    | cmd | status | result | scratchBase | errlog => rfl

/-- Settles O45: a row of the table is a register's name, and the laws of `OperandRegs.set` say the rest. -/
theorem operandRegisterWriteThenRead : Obligations.OperandRegisterWriteThenRead := by
  unfold Obligations.OperandRegisterWriteThenRead
  refine ⟨?_, fun s => rfl⟩
  intro s idx field v rest hmem hhost
  obtain ⟨r, rfl, hfield⟩ := exists_of_mem_operandRegisters hmem
  have hcmd : r.index ≠ 0#8 := fun h => by cases index_injective (a₁ := .op r) (a₂ := .cmd) h
  refine ⟨{ s with regs := s.regs.set r v, host := rest }, ?_, rfl, ?_, ?_, ?_, ?_⟩
  · rw [step_regWrite hhost hcmd, regStore_operand]
  · rw [hfield, operand_get_set_same, and_mask]
  · rw [hfield]
    exact regRead_index _ (.op r)
  · intro idx' field' hmem' hne
    obtain ⟨q, rfl, hfield'⟩ := exists_of_mem_operandRegisters hmem'
    rw [hfield', hfield']
    exact operand_get_set_other _ _ fun hq => hne (congrArg OpReg.index hq)
  · exact fun j hj => regRead_set_other s r v rest hj

/-- Settles O46: the indices named are no operand register's, and not CMD's. -/
theorem readOnlyAndUnmappedWritesAreIgnored : Obligations.ReadOnlyAndUnmappedWritesAreIgnored := by
  unfold Obligations.ReadOnlyAndUnmappedWritesAreIgnored
  intro s idx v rest hhost hidx
  have hcmd : idx ≠ 0#8 := by
    rintro rfl
    simp at hidx
  have hop : ∀ r : OpReg, idx ≠ r.index := by
    rintro r rfl
    have := opReg_index_range r
    omega
  refine ⟨?_, fun h => regRead_unmapped s h⟩
  rw [step_regWrite hhost hcmd, regStore_ignored _ _ hop]

/-- Settles O47: each clause is the read of one register at its index. -/
theorem registerReadChangesNothing : Obligations.RegisterReadChangesNothing := by
  unfold Obligations.RegisterReadChangesNothing
  intro s idx rest hhost
  refine ⟨_, step_regRead hhost, rfl, ?_, ?_, ?_, ?_, ?_, ?_, fun h => regRead_unmapped s h⟩
  · intro field hmem
    obtain ⟨r, rfl, hfield⟩ := exists_of_mem_operandRegisters hmem
    rw [hfield]
    exact regRead_index s (.op r)
  · rintro rfl; exact regRead_index s .status
  · rintro rfl; exact regRead_index s .result
  · rintro rfl; exact regRead_index s .scratchBase
  · rintro rfl; exact regRead_index s .errlog
  · rintro rfl; exact regRead_index s .cmd

theorem busIndex_of_word {offset : BitVec 10} {n : Nat} (h : n = 4 ∧ offset.toNat % 4 = 0) :
    busIndex offset n = some (BitVec.ofNat 8 (offset.toNat / 4)) := if_pos h

theorem busIndex_of_not_word {offset : BitVec 10} {n : Nat} (h : ¬ (n = 4 ∧ offset.toNat % 4 = 0)) :
    busIndex offset n = none := if_neg h

/-- Settles O49: `busIndex` gives the index of an aligned word access and none for any other. -/
theorem narrowRegisterAccessIsRefused : Obligations.NarrowRegisterAccessIsRefused := by
  unfold Obligations.NarrowRegisterAccessIsRefused
  intro s offset n v rest
  refine ⟨fun hhost => ⟨fun hword => ?_, fun hnot => ?_⟩,
    fun hhost => ⟨fun hword => ?_, fun hnot => ?_⟩⟩ <;> rw [step_cons hhost]
  · simp only [hostAct, busIndex_of_word hword, step]
  · simp only [hostAct, busIndex_of_not_word hnot]
  · simp only [hostAct, busIndex_of_word hword, step]
  · simp only [hostAct, busIndex_of_not_word hnot]

/-- STATUS as a number: its three fields side by side (rule R43). -/
theorem status_word_toNat (st : Status) :
    st.word.toNat = st.errCode + 16 * st.sv.toNat + 32 * st.pathCode
      ∧ st.errCode ≤ 5 ∧ st.sv.toNat ≤ 1 ∧ st.pathCode ≤ 3 := by
  have herr : st.errCode ≤ 5 := by
    unfold Status.errCode
    rcases st.err with - | c
    · simp
    · cases c <;> simp [ErrCode.code]
  have hpath : st.pathCode ≤ 3 := by
    unfold Status.pathCode
    rcases st.path with - | p
    · simp
    · cases p <;> simp [Path.code]
  have hsv : st.sv.toNat ≤ 1 := Bool.toNat_le st.sv
  refine ⟨?_, herr, hsv, hpath⟩
  rw [Status.word, BitVec.toNat_ofNat]
  omega

/-- Settles O48: the fields of the number `status_word_toNat` gives. -/
theorem statusWordHoldsErrSvAndPath : Obligations.StatusWordHoldsErrSvAndPath := by
  unfold Obligations.StatusWordHoldsErrSvAndPath
  intro s
  rw [show s.regRead 0x01#8 = s.status.word from regRead_index s .status]
  obtain ⟨hword, herr, hsv, hpath⟩ := status_word_toNat s.status
  refine ⟨?_, ?_, ?_, by omega⟩
  · have hfield : s.status.word.toNat % 16 = s.status.errCode := by omega
    rw [hfield, Status.errCode]
    rcases s.status.err with - | c
    · rfl
    · cases c <;> rfl
  · have hfield : s.status.word.toNat / 2 ^ 4 % 2 = s.status.sv.toNat := by omega
    rw [← BitVec.testBit_toNat, Nat.testBit_eq_decide_div_mod_eq, hfield]
    cases s.status.sv <;> rfl
  · have hfield : s.status.word.toNat / 32 % 4 = s.status.pathCode := by omega
    rw [hfield, Status.pathCode]
    rcases s.status.path with - | p
    · rfl
    · cases p <;> rfl

end Sys2Proof.Machine
end

section
/-! SUPPORT. What a command leaves unchanged (rules R36, R43, R45, R46, R60), and how a command reaches the
engine (rules R21, R42). -/

namespace Sys2Proof.Machine

theorem roundTrip (i : Instr) : Laws.RoundTrip.Statement i := by
  cases i with
  | nop => exact Laws.RoundTrip.nop
  | planSize => exact Laws.RoundTrip.planSize
  | setScratch => exact Laws.RoundTrip.setScratch
  | convolve => exact Laws.RoundTrip.convolve
  | convolveB => exact Laws.RoundTrip.convolveB
  | requant => exact Laws.RoundTrip.requant
  | requantO => exact Laws.RoundTrip.requantO
  | packCin => exact Laws.RoundTrip.packCin
  | packCfilt => exact Laws.RoundTrip.packCfilt
  | packPad => exact Laws.RoundTrip.packPad

/-- The decoder reads back what the encoder writes (rule R92). -/
theorem decodeWord_encode (i : Instr) : decodeWord (encode i) = .ok i := by
  obtain ⟨-, hdec, -, -⟩ := roundTrip i
  exact hdec

theorem runCommand_of_decodes {v : Word} {i : Instr} (h : decodeWord v = .ok i) (s : State) :
    runCommand v s = exec i s := by
  unfold runCommand
  rw [h]

/-- What a write of CMD did: it ran a command, or the word was illegal (rules R92, R232). -/
theorem runCommand_cases {v : Word} {s t : State} (h : runCommand v s = .next t) :
    (∃ i, exec i s = .next t) ∨ t = s.raise .illegalCmd none := by
  unfold runCommand at h
  split at h
  · exact .inl ⟨_, h⟩
  · cases h; exact .inr rfl

theorem withFetchWord_encode_host (s : State) (i : Instr) :
    (s.withFetchWord 32 (encode i).toNat).host = .regWrite 0#8 (encode i) :: s.host := by
  simp only [State.withFetchWord, Nat.mod_eq_of_lt (encode i).isLt, BitVec.ofNat_toNat, BitVec.setWidth_eq]

/-- Settles O5: the next access is the write of CMD, and its word decodes to the command. -/
theorem stepRunsTheDecodedCommand : Obligations.StepRunsTheDecodedCommand := by
  unfold Obligations.StepRunsTheDecodedCommand
  refine ⟨?_, ?_, ?_⟩
  · intro s v i rest hhost hdec
    rw [step_cmd hhost, runCommand_of_decodes hdec]
  · intro s i
    rw [step_cmd (withFetchWord_encode_host s i), runCommand_of_decodes (decodeWord_encode i)]
    rfl
  · intro s hhost
    unfold step
    rw [hhost]

/-- No command writes an operand register, the configuration or what belongs to the host. -/
theorem exec_frame {i : Instr} {s t : State} (h : exec i s = .next t) :
    t.regs = s.regs ∧ t.cfg = s.cfg ∧ t.regions = s.regions ∧ t.host = s.host ∧ t.hostRead = s.hostRead := by
  rcases exec_cases h with ⟨c, p, rfl, -⟩ | ⟨-, -, hregs, hcfg, hregions, hhost, hread⟩
  · exact ⟨rfl, rfl, rfl, rfl, rfl⟩
  · exact ⟨hregs, hcfg, hregions, hhost, hread⟩

/-- Only SET_SCRATCH writes the registration slot (rules R43, R46). -/
theorem exec_slot_frame {i : Instr} {s t : State} (h : exec i s = .next t) (hi : i ≠ .setScratch) :
    t.status.sv = s.status.sv ∧ t.scratchBase = s.scratchBase := by
  cases i with
  | setScratch => exact absurd rfl hi
  | nop | requant => cases h; exact ⟨rfl, rfl⟩
  | planSize => rcases execPlanSize_cases h with rfl | rfl | ⟨-, -, rfl⟩ <;> exact ⟨rfl, rfl⟩
  | requantO => rcases execRequantO_cases h with rfl | ⟨-, rfl⟩ <;> exact ⟨rfl, rfl⟩
  | convolve | convolveB => rcases convolveWith_cases h with ⟨c, p, -, rfl⟩ | ⟨-, rfl⟩ <;> exact ⟨rfl, rfl⟩
  | packCin | packCfilt | packPad =>
    rcases packWith_cases h with ⟨c, p, -, rfl⟩ | ⟨-, rfl⟩ <;> exact ⟨rfl, rfl⟩

/-- Settles O53, from the two frames of `exec`. -/
theorem onlySetScratchWritesTheRegistrationSlot : Obligations.OnlySetScratchWritesTheRegistrationSlot := by
  unfold Obligations.OnlySetScratchWritesTheRegistrationSlot
  intro i s t h
  obtain ⟨hregs, hcfg, hregions, hhost, hread⟩ := exec_frame h
  exact ⟨hregs, hcfg, hregions, hhost, hread, exec_slot_frame h⟩

theorem convolveWith_result {b : Bool} {s t : State} (h : convolveWith b s = .next t) : t.result = s.result := by
  rcases convolveWith_cases h with ⟨c, p, -, rfl⟩ | ⟨-, rfl⟩ <;> rfl

theorem setScratch_frame {s t : State} (h : exec .setScratch s = .next t) :
    t.result = s.result ∧ t.mem = s.mem := by
  cases h
  rw [register_eq]
  exact ⟨rfl, rfl⟩

/-- NOP, SET_SCRATCH and CONVOLVE leave RESULT (rule R45). -/
theorem exec_result_frame {i : Instr} {s t : State} (h : exec i s = .next t)
    (hi : i ∈ [Instr.nop, .setScratch, .convolve, .convolveB]) : t.result = s.result := by
  simp only [List.mem_cons, List.not_mem_nil, or_false] at hi
  rcases hi with rfl | rfl | rfl | rfl
  · cases h; rfl
  · exact (setScratch_frame h).1
  · exact convolveWith_result h
  · exact convolveWith_result h

/-- On another memory PLAN_SIZE does the same: its two checks read registers only. -/
theorem execPlanSize_withMem {s t : State} (m : Memory) (h : execPlanSize s = .next t) :
    execPlanSize { s with mem := m } = .next { t with mem := m } := by
  unfold execPlanSize at h
  split at h
  · next hv => cases h; exact if_pos hv
  · next hv =>
    split at h
    · next hr => cases h; exact (if_neg hv).trans (if_pos hr)
    · next hr => cases h; exact (if_neg hv).trans (if_neg hr)

/-- On another memory REQUANT.O does the same: its check reads registers only. -/
theorem execRequantO_withMem {s t : State} (m : Memory) (h : execRequantO s = .next t) :
    execRequantO { s with mem := m } = .next { t with mem := m } := by
  unfold execRequantO at h
  split at h
  · next hv => cases h; exact if_pos hv
  · next hv => cases h; exact if_neg hv

theorem execSetScratch_withMem {s t : State} (m : Memory) (h : execSetScratch s = .next t) :
    execSetScratch { s with mem := m } = .next { t with mem := m } := by
  cases h
  simp only [execSetScratch, register_eq]
  rfl

/-- The commands that neither write nor read memory (rule R60). -/
theorem exec_mem_frame {i : Instr} {s t : State} (h : exec i s = .next t)
    (hi : i ∈ [Instr.nop, .planSize, .setScratch, .requant, .requantO]) :
    t.mem = s.mem ∧ ∀ m : Memory, exec i { s with mem := m } = .next { t with mem := m } := by
  simp only [List.mem_cons, List.not_mem_nil, or_false] at hi
  rcases hi with rfl | rfl | rfl | rfl | rfl
  · cases h; exact ⟨rfl, fun m => rfl⟩
  · refine ⟨?_, fun m => execPlanSize_withMem m h⟩
    rcases execPlanSize_cases h with rfl | rfl | ⟨-, -, rfl⟩ <;> rfl
  · exact ⟨(setScratch_frame h).2, fun m => execSetScratch_withMem m h⟩
  · cases h; exact ⟨rfl, fun m => rfl⟩
  · refine ⟨?_, fun m => execRequantO_withMem m h⟩
    rcases execRequantO_cases h with rfl | ⟨-, rfl⟩ <;> rfl

/-- Settles O54, from the frames of RESULT and of memory. -/
theorem resultAndMemoryAreWrittenOnlyByTheirCommands :
    Obligations.ResultAndMemoryAreWrittenOnlyByTheirCommands := by
  unfold Obligations.ResultAndMemoryAreWrittenOnlyByTheirCommands
  exact fun i s t h => ⟨exec_result_frame h, exec_mem_frame h⟩

end Sys2Proof.Machine
end

section
/-! SUPPORT. The bits of ERRLOG, and that only a reset clears one (rule R47). -/

namespace Sys2Proof.Machine

/-- Bit `n` of ERRLOG is the bit of code `n`. -/
theorem errlog_word_code (l : ErrLog) (c : ErrCode) : l.word.getLsbD c.code = l.get c := by
  obtain ⟨e1, e2, e3, e4, e5⟩ := l
  cases c <;> revert e1 e2 e3 e4 e5 <;> decide

/-- ERRLOG as a number is even and below 64. -/
theorem errlog_word_toNat (l : ErrLog) : l.word.toNat % 2 = 0 ∧ l.word.toNat < 64 := by
  have h1 := Bool.toNat_le l.illegalCmd
  have h2 := Bool.toNat_le l.noScratch
  have h3 := Bool.toNat_le l.shape
  have h4 := Bool.toNat_le l.align
  have h5 := Bool.toNat_le l.range
  rw [ErrLog.word, BitVec.toNat_ofNat]
  omega

theorem errlog_word_reserved (l : ErrLog) {n : Nat} (h : n = 0 ∨ 6 ≤ n) : l.word.getLsbD n = false := by
  obtain ⟨heven, hlt⟩ := errlog_word_toNat l
  rw [← BitVec.testBit_toNat]
  rcases h with rfl | hn
  · rw [Nat.testBit_zero]
    simp [heven]
  · have hpow : 2 ^ 6 ≤ 2 ^ n := Nat.pow_le_pow_right Nat.two_pos hn
    exact Nat.testBit_lt_two_pow (lt_of_lt_of_le hlt hpow)

/-- A bit of ERRLOG that reads 1 is the bit of an error code. -/
theorem errlog_word_bit_iff (l : ErrLog) (n : Nat) :
    l.word.getLsbD n = true ↔ ∃ c : ErrCode, c.code = n ∧ l.get c = true := by
  constructor
  · intro hbit
    have hrange : ¬ (n = 0 ∨ 6 ≤ n) := fun h => by simp [errlog_word_reserved l h] at hbit
    obtain ⟨c, rfl⟩ : ∃ c : ErrCode, c.code = n := by
      obtain h | h | h | h | h : n = 1 ∨ n = 2 ∨ n = 3 ∨ n = 4 ∨ n = 5 := by omega
      · exact ⟨.illegalCmd, h.symm⟩
      · exact ⟨.noScratch, h.symm⟩
      · exact ⟨.shape, h.symm⟩
      · exact ⟨.align, h.symm⟩
      · exact ⟨.range, h.symm⟩
    exact ⟨c, rfl, errlog_word_code l c ▸ hbit⟩
  · rintro ⟨c, rfl, hc⟩
    rw [errlog_word_code, hc]

theorem regRead_errlog (s : State) : s.regRead 0x04#8 = s.errlog.word := regRead_index s .errlog

section sticky
variable {s t : State} {c : ErrCode}

/-- A command that ends with an error has logged it. -/
theorem runCommand_logs {v : Word} (h : runCommand v s = .next t) (herr : t.status.err = some c) :
    t.errlog.get c = true := by
  have hraise : ∀ d p, t = s.raise d p → t.errlog.get c = true := by
    rintro d p rfl
    cases herr
    exact errlog_get_set_same _ _
  rcases runCommand_cases h with ⟨i, hi⟩ | ht
  · rcases exec_cases hi with ⟨d, p, ht, -⟩ | ⟨hnone, -⟩
    · exact hraise d p ht
    · rw [hnone] at herr
      cases herr
  · exact hraise _ _ ht

theorem exec_errlog_sticky {i : Instr} (h : exec i s = .next t) (hc : s.errlog.get c = true) :
    t.errlog.get c = true := by
  rcases exec_cases h with ⟨d, p, rfl, -⟩ | ⟨-, hlog, -⟩
  · exact errlog_get_set_of_get _ _ _ hc
  · rwa [hlog]

theorem runCommand_errlog_sticky {v : Word} (h : runCommand v s = .next t) (hc : s.errlog.get c = true) :
    t.errlog.get c = true := by
  rcases runCommand_cases h with ⟨i, hi⟩ | rfl
  · exact exec_errlog_sticky hi hc
  · exact errlog_get_set_of_get _ _ _ hc

theorem regWrite_errlog_sticky {idx : BitVec 8} {v : Word} (h : regWrite idx v s = .next t)
    (hc : s.errlog.get c = true) : t.errlog.get c = true := by
  rcases regWrite_cases h with ⟨-, hrun⟩ | rfl | ⟨r, rfl⟩
  · exact runCommand_errlog_sticky hrun hc
  · exact hc
  · exact hc

theorem withdraw_errlog (s : State) (r : Region) : (s.withdraw r).errlog = s.errlog := by
  unfold State.withdraw
  dsimp only
  split
  · rw [havoc_eq]
  · rfl

/-- No action of the host but a reset clears a bit of ERRLOG (rule R47). -/
theorem hostAct_errlog_sticky {a : HostAction} (h : hostAct a s = .next t) (hreset : a ≠ .reset)
    (hduring : ∀ v, a ≠ .resetDuring v) (hc : s.errlog.get c = true) : t.errlog.get c = true := by
  cases a with
  | regWrite idx v => exact regWrite_errlog_sticky h hc
  | busWrite offset n v =>
    simp only [hostAct] at h
    split at h
    · exact regWrite_errlog_sticky h hc
    · cases h
  | withdraw r => cases h; rwa [withdraw_errlog]
  | reset => exact absurd rfl hreset
  | resetDuring v => exact absurd rfl (hduring v)
  | regRead | declare => cases h; exact hc
  | busRead | memWrite | memRead =>
    simp only [hostAct] at h
    split at h
    · cases h; exact hc
    · cases h

end sticky

/-- Settles O55: a bit that reads 1 is a logged code, and a logged code stays logged. -/
theorem errlogBitsAreStickyUntilReset : Obligations.ErrlogBitsAreStickyUntilReset := by
  unfold Obligations.ErrlogBitsAreStickyUntilReset
  simp only [regRead_errlog]
  refine ⟨?_, ?_, fun s n hn => errlog_word_reserved s.errlog hn⟩
  · intro v s t c hrun herr
    rw [errlog_word_code]
    exact runCommand_logs hrun herr
  · intro s t n hstep hreset hduring hbit
    cases hhost : s.host with
    | nil =>
      unfold step at hstep
      rw [hhost] at hstep
      cases hstep
      exact hbit
    | cons a rest =>
      rw [step_cons hhost] at hstep
      obtain ⟨c, hcode, hc⟩ := (errlog_word_bit_iff _ _).mp hbit
      have ha : a ≠ .reset := fun h => hreset rest (h ▸ hhost)
      have ha' : ∀ v, a ≠ .resetDuring v := fun v h => hduring v rest (h ▸ hhost)
      exact (errlog_word_bit_iff _ _).mpr ⟨c, hcode, hostAct_errlog_sticky hstep ha ha' hc⟩

end Sys2Proof.Machine
end

section
/-! SUPPORT. The reset values (rules R55, R260): every register reads 0, the shape they spell is refused, and
the invariant holds. -/

namespace Sys2Proof.Machine

theorem operandRegs_zero_get (r : OpReg) : OperandRegs.zero.get r = 0 := by
  cases r <;> rfl

/-- A reset leaves 0 in every register (rule R260). -/
theorem readReg_resetRegs (s : State) (r : Reg) : s.resetRegs.readReg r = 0 := by
  cases r with
  | op r => exact operandRegs_zero_get r
  | cmd | status | result | scratchBase | errlog => rfl

@[simp] theorem regRead_resetRegs (s : State) (idx : BitVec 8) : s.resetRegs.regRead idx = 0 := by
  unfold State.regRead
  cases Reg.ofIndex idx with
  | none => rfl
  | some r => exact readReg_resetRegs s r

/-- The machine after reset is one whose registers were just reset. -/
theorem reset_resetRegs : State.reset.resetRegs = State.reset := rfl

/-- Settles O56: both clauses read a state whose registers were just reset. -/
theorem resetZeroesEveryRegisterAndKeepsMemory : Obligations.ResetZeroesEveryRegisterAndKeepsMemory := by
  unfold Obligations.ResetZeroesEveryRegisterAndKeepsMemory
  constructor
  · intro idx
    rw [← reset_resetRegs]
    exact regRead_resetRegs _ idx
  · intro s rest hhost
    exact ⟨_, step_cons hhost, rfl, rfl, rfl, regRead_resetRegs _⟩

theorem convolveWith_invalid (b : Bool) {s : State} (h : s.shape.valid = false) :
    convolveWith b s = .next (s.raise .shape none) := by
  simp [convolveWith, State.convVerdict, h]

theorem packWith_invalid (mode : PackMode) {s : State} (h : s.shape.valid = false) :
    packWith mode s = .next (s.raise .shape none) := by
  simp [packWith, State.packVerdict, h]

/-- A shape that fails the checks of rule R160 ends each of its commands with `ERR_SHAPE`. -/
theorem exec_invalid_shape {i : Instr} (hi : i ∈ shapeCommands) {s : State} (h : s.shape.valid = false) :
    exec i s = .next (s.raise .shape none) := by
  simp only [shapeCommands, List.mem_cons, List.not_mem_nil, or_false] at hi
  rcases hi with rfl | rfl | rfl | rfl | rfl | rfl
  · exact if_pos (by rw [h]; rfl)
  · exact convolveWith_invalid false h
  · exact convolveWith_invalid true h
  · exact packWith_invalid .cin h
  · exact packWith_invalid .cfilt h
  · exact packWith_invalid .pad h

/-- The reset values spell a shape of zero dimensions, which rule R160 refuses. -/
theorem resetRegs_shape_invalid (s : State) : s.resetRegs.shape.valid = false := rfl

/-- Under both settings of `RQ_MULH_TIE` the reset values requantize to 0 (rules R123, R265). -/
theorem rq_tied_zero (tie : MulhTie) : rq (.tied tie) 0 0 0 = some 0 := by
  cases tie <;> decide

/-- Settles O57: the zero shape is refused, and a zero accumulator requantizes to 0. -/
theorem commandsOnTheResetValues : Obligations.CommandsOnTheResetValues := by
  unfold Obligations.CommandsOnTheResetValues
  intro s
  refine ⟨fun i hi => exec_invalid_shape hi (resetRegs_shape_invalid s), _, rfl, rfl, rfl, ?_⟩
  intro tie htie
  have hrq : s.resetRegs.rqOperands = some 0 := by
    rw [show s.resetRegs.rqOperands = rq s.cfg.mulh 0 0 0 from rfl, htie, rq_tied_zero]
  simp [hrq]

/-- Settles O59: no byte is listed, no error is reported, and `Config.suggested` obeys rule R11. -/
theorem invariantHoldsAtReset : Obligations.InvariantHoldsAtReset := by
  unfold Obligations.InvariantHoldsAtReset State.Inv
  refine ⟨rfl, by decide, ?_, by decide, by decide, by decide, by decide⟩
  intro c herr
  cases herr

end Sys2Proof.Machine
end

section
/-! SUPPORT. The invariant of the machine (rules R11, R24, R46, R47, R60, R167): what a failed command, a
completed command, a host access and a reset each keep of it. -/

namespace Sys2Proof.Machine

/-- The value of a halfword register, with its reserved bits forced to zero (rule R24). -/
theorem and_lowHalf_lt (v : Word) : (v &&& 0x0000FFFF#32).toNat < 65536 := by
  rw [BitVec.toNat_and]
  exact Nat.lt_of_le_of_lt Nat.and_le_right (by decide)

/-- A host write keeps the reserved bits of a halfword register 0 (rules R21, R24). -/
theorem halfword_get_set (g : OperandRegs) {q : OpReg} (r : OpReg) (v : Word) (hq : q.mask = 0x0000FFFF#32)
    (h : (g.get q).toNat < 65536) : ((g.set r v).get q).toNat < 65536 := by
  by_cases hqr : q = r
  · subst hqr
    rw [operand_get_set_same, hq]
    exact and_lowHalf_lt v
  · rwa [operand_get_set_other g v hqr]

/-- The part of a range in the address space ends inside it (rule R60). -/
theorem clip_le (r : Range) : r.clip.base + r.clip.len ≤ memSize := by
  simp only [Range.clip]
  omega

/-- A CONVOLVE in contract has its output in the address space, and its scratch footprint if it has one
(rule R162). -/
theorem convReady_bounds {s : State} {b : Bool} (h : s.convReady b) :
    s.outRange.base + s.outRange.len ≤ memSize
      ∧ ∀ r ∈ s.convScratch s.route, r.base + r.len ≤ memSize := by
  obtain ⟨-, hrange, -, hsv, -⟩ := h
  simp only [State.convOutOfRange, Bool.or_eq_false_iff, Bool.not_eq_false'] at hrange
  obtain ⟨⟨⟨⟨⟨⟨⟨-, -⟩, hout⟩, -⟩, -⟩, -⟩, -⟩, hscratch⟩ := hrange
  refine ⟨(fits_iff _).mp hout, fun r hr => ?_⟩
  unfold State.convScratch at hr
  split at hr
  · next hneeds =>
    rw [List.mem_singleton.mp hr]
    exact (fits_iff _).mp (by simpa [hneeds, hsv hneeds] using hscratch)
  · cases hr

/-- A PACK in contract has its destination in the address space (rule R216). -/
theorem packReady_bound {s : State} {mode : PackMode} (h : s.packReady mode) :
    (s.packRange mode).base + (s.packRange mode).len ≤ memSize := by
  obtain ⟨-, -, hrange, hsv, -⟩ := h
  simp only [State.packOutOfRange, Bool.or_eq_false_iff, hsv, Bool.true_and, Bool.not_eq_false'] at hrange
  exact (fits_iff _).mp hrange.2

/-- Bytes given by their offset, written inside the address space, keep the canonical form. -/
theorem wf_writeBytes_map (f : Nat → Byte) {m : Memory} {a n : Nat} (hwf : m.wf = true) (h : a + n ≤ memSize) :
    (m.writeBytes a ((List.range n).map f)).wf = true :=
  wf_writeBytes _ m a hwf (by simpa using h)

theorem wf_convMem {s : State} {b : Bool} (hwf : s.mem.wf = true) (h : s.convReady b) :
    (s.convMem b s.route).wf = true := by
  obtain ⟨hout, hscratch⟩ := convReady_bounds h
  have hwritten := wf_writeBytes_map (s.outByte b s.route) hwf hout
  unfold State.convMem
  dsimp only
  split
  · next hneeds =>
    have hfits := hscratch s.scratchRange (by simp [State.convScratch, hneeds])
    exact wf_writeBytes_map _ hwritten hfits
  · exact hwritten

theorem convolveWith_wf {b : Bool} {s t : State} (hwf : s.mem.wf = true) (h : convolveWith b s = .next t) :
    t.mem.wf = true := by
  rcases convolveWith_cases h with ⟨c, p, -, rfl⟩ | ⟨hready, rfl⟩
  · exact hwf
  · exact wf_convMem hwf hready

theorem packWith_wf {mode : PackMode} {s t : State} (hwf : s.mem.wf = true) (h : packWith mode s = .next t) :
    t.mem.wf = true := by
  rcases packWith_cases h with ⟨c, p, -, rfl⟩ | ⟨hready, rfl⟩
  · exact hwf
  · exact wf_writeBytes_map _ hwf (packReady_bound hready)

/-- Every command keeps the canonical form of memory (rule R60). -/
theorem exec_wf {i : Instr} {s t : State} (hwf : s.mem.wf = true) (h : exec i s = .next t) :
    t.mem.wf = true := by
  cases i with
  | nop | planSize | setScratch | requant | requantO =>
    rw [(exec_mem_frame h (by decide)).1]
    exact hwf
  | convolve | convolveB => exact convolveWith_wf hwf h
  | packCin | packCfilt | packPad => exact packWith_wf hwf h

/-- Every command leaves a region registered exactly when SCRATCH_BASE is not 0 (rules R46, R156). -/
theorem exec_slot {i : Instr} {s t : State} (hslot : s.status.sv = true ↔ s.scratchBase ≠ 0)
    (h : exec i s = .next t) : t.status.sv = true ↔ t.scratchBase ≠ 0 := by
  by_cases hi : i = .setScratch
  · subst hi
    cases h
    rw [register_eq]
    exact decide_eq_true_iff
  · obtain ⟨hsv, hbase⟩ := exec_slot_frame h hi
    rwa [hsv, hbase]

/-- A failed command logs its error, and reports a route only where one was computed (rules R167, R234). -/
theorem inv_raise {s : State} (hs : s.Inv) (c : ErrCode) (p : Option Path) : (s.raise c p).Inv := by
  obtain ⟨hmem, hslot, -, -, hin, hout, hcfg⟩ := hs
  refine ⟨hmem, hslot, ?_, ?_, hin, hout, hcfg⟩
  · intro d hd
    cases hd
    exact errlog_get_set_same _ _
  · intro hc
    exact failed_path_none _ _ _ (by simpa using hc)

theorem exec_inv {i : Instr} {s t : State} (hs : s.Inv) (h : exec i s = .next t) : t.Inv := by
  rcases exec_cases h with ⟨c, p, rfl, -⟩ | ⟨herr, -, hregs, hcfg, -⟩
  · exact inv_raise hs c p
  · obtain ⟨hmem, hslot, -, -, hin, hout, hlegal⟩ := hs
    refine ⟨exec_wf hmem h, exec_slot hslot h, ?_, ?_, hregs ▸ hin, hregs ▸ hout, hcfg ▸ hlegal⟩
    · simp [herr]
    · simp [herr]

/-- A reset establishes what the invariant says of registers, and keeps memory and the parameters. -/
theorem inv_resetRegs {s : State} (hs : s.Inv) : s.resetRegs.Inv := by
  obtain ⟨hmem, -, -, -, -, -, hcfg⟩ := hs
  have hzero : (0 : Word).toNat < 65536 := by decide
  refine ⟨hmem, by simp [Status.zero], ?_, ?_, hzero, hzero, hcfg⟩
  · intro c hc
    cases hc
  · simp [Status.zero]

/-- Draws inside the address space keep the invariant. -/
theorem inv_havoc {s : State} (hs : s.Inv) {rs : List Range} (hr : ∀ r ∈ rs, r.base + r.len ≤ memSize) :
    (s.havoc rs).Inv := by
  obtain ⟨hmem, hrest⟩ := hs
  have hwf := wf_havoc rs s hmem hr
  rw [havoc_eq]
  exact ⟨hwf, hrest⟩

theorem inv_withdraw {s : State} (hs : s.Inv) (r : Region) : (s.withdraw r).Inv := by
  have hs' : State.Inv { s with regions := s.regions.filter (fun q => decide (q ≠ r)) } := hs
  unfold State.withdraw
  dsimp only
  split
  · refine inv_havoc hs' fun q hq => ?_
    rw [List.mem_singleton.mp hq]
    exact clip_le r.range
  · exact hs'

theorem inv_set {s : State} (hs : s.Inv) (r : OpReg) (v : Word) :
    State.Inv { s with regs := s.regs.set r v } := by
  obtain ⟨hmem, hslot, hlog, hpath, hin, hout, hcfg⟩ := hs
  exact ⟨hmem, hslot, hlog, hpath, halfword_get_set s.regs (q := .inCh) r v rfl hin,
    halfword_get_set s.regs (q := .outCh) r v rfl hout, hcfg⟩

theorem runCommand_inv {v : Word} {s t : State} (hs : s.Inv) (h : runCommand v s = .next t) : t.Inv := by
  rcases runCommand_cases h with ⟨i, hi⟩ | rfl
  · exact exec_inv hs hi
  · exact inv_raise hs _ _

theorem regWrite_inv {idx : BitVec 8} {v : Word} {s t : State} (hs : s.Inv) (h : regWrite idx v s = .next t) :
    t.Inv := by
  rcases regWrite_cases h with ⟨-, hrun⟩ | rfl | ⟨r, rfl⟩
  · exact runCommand_inv hs hrun
  · exact hs
  · exact inv_set hs r v

theorem convFootprint_bounds {s : State} {b : Bool} {rs : List Range} (h : s.convFootprint b = .writes rs) :
    ∀ r ∈ rs, r.base + r.len ≤ memSize := by
  unfold State.convFootprint at h
  split at h
  · cases h
  · cases h
  · next p hv =>
    cases h
    obtain ⟨hready, rfl⟩ := (convVerdict_go s b p).mp hv
    obtain ⟨hout, hscratch⟩ := convReady_bounds hready
    simpa using ⟨hout, hscratch⟩

theorem packFootprint_bounds {s : State} {mode : PackMode} {rs : List Range}
    (h : s.packFootprint mode = .writes rs) : ∀ r ∈ rs, r.base + r.len ≤ memSize := by
  unfold State.packFootprint at h
  split at h
  · cases h
  · cases h
  · next p hv =>
    cases h
    simpa using packReady_bound ((packVerdict_go s mode p).mp hv).1

/-- What a command was about to write lies in the address space (rules R162, R216, R262). -/
theorem footprint_bounds {s : State} {i : Instr} {rs : List Range} (h : s.footprint i = .writes rs) :
    ∀ r ∈ rs, r.base + r.len ≤ memSize := by
  cases i with
  | nop | planSize | setScratch | requant | requantO => cases h
  | convolve | convolveB => exact convFootprint_bounds h
  | packCin | packCfilt | packPad => exact packFootprint_bounds h

theorem resetDuring_inv {v : Word} {s t : State} (hs : s.Inv) (h : resetDuring v s = .next t) : t.Inv := by
  unfold resetDuring at h
  split at h
  · cases h; exact inv_resetRegs hs
  · split at h
    · cases h; exact inv_resetRegs hs
    · cases h
    · next hf => cases h; exact inv_resetRegs (inv_havoc hs (footprint_bounds hf))

theorem hostAct_inv {a : HostAction} {s t : State} (hs : s.Inv) (h : hostAct a s = .next t) : t.Inv := by
  cases a with
  | regWrite idx v => exact regWrite_inv hs h
  | busWrite offset n v =>
    simp only [hostAct] at h
    split at h
    · exact regWrite_inv hs h
    · cases h
  | memWrite x b =>
    simp only [hostAct] at h
    split at h
    · cases h
      obtain ⟨hmem, hrest⟩ := hs
      exact ⟨wf_write _ _ _ hmem x.isLt, hrest⟩
    · cases h
  | busRead | memRead =>
    simp only [hostAct] at h
    split at h
    · cases h; exact hs
    · cases h
  | regRead | declare => cases h; exact hs
  | withdraw r => cases h; exact inv_withdraw hs r
  | reset => cases h; exact inv_resetRegs hs
  | resetDuring v => exact resetDuring_inv hs h

/-- With no access left the block is idle (rule R7). -/
theorem step_idle {s : State} (h : s.host = []) : step s = .next s := by
  unfold step
  rw [h]

/-- Settles O60: an idle step changes nothing, and no action of the host breaks the invariant. -/
theorem everyStepKeepsTheInvariant : Obligations.EveryStepKeepsTheInvariant := by
  unfold Obligations.EveryStepKeepsTheInvariant
  intro s t hs hstep
  cases hhost : s.host with
  | nil =>
    rw [step_idle hhost] at hstep
    cases hstep
    exact hs
  | cons a rest =>
    rw [step_cons hhost] at hstep
    have hs' : State.Inv { s with host := rest } := hs
    exact hostAct_inv hs' hstep

end Sys2Proof.Machine
end

section
/-! SUPPORT. Host stores and loads of memory bytes (rules R60, R62, R66). -/

namespace Sys2Proof.Machine

/-- A byte lies on memory of a kind exactly when a region of that kind holds its address. -/
theorem touches_byte_iff (s : State) (k : RegionKind) (a : Nat) :
    s.touches k [⟨a, 1⟩] = true ↔ ∃ q ∈ s.regions, q.kind = k ∧ q.range.has a = true := by
  have hbyte : ∀ x, (Range.mk a 1).has x = true ↔ x = a := fun x => by
    simp only [has_iff]
    omega
  simp [touches_iff, hbyte]

/-- The host may access a byte exactly when it has declared it neither foreign nor a device's
(rule R66). -/
theorem hostMayAccess_iff (s : State) (a : Nat) :
    s.hostMayAccess a = true ↔ ¬ ∃ q ∈ s.regions, q.kind ≠ .scratch ∧ q.range.has a = true := by
  rw [State.hostMayAccess, Bool.and_eq_true, Bool.not_eq_true', Bool.not_eq_true', ← Bool.not_eq_true,
    ← Bool.not_eq_true, touches_byte_iff, touches_byte_iff, ← not_or]
  refine not_congr ⟨?_, ?_⟩
  · rintro (⟨q, hq, hk, ha⟩ | ⟨q, hq, hk, ha⟩) <;> exact ⟨q, hq, by simp [hk], ha⟩
  · rintro ⟨q, hq, hk, ha⟩
    cases hkind : q.kind with
    | scratch => exact absurd hkind hk
    | notOwned => exact .inl ⟨q, hq, hkind, ha⟩
    | sideEffects => exact .inr ⟨q, hq, hkind, ha⟩

section hostByte
variable {s : State} {a : Word} {rest : List HostAction}

theorem step_memWrite {v : Byte} (h : s.host = .memWrite a v :: rest) (hmay : s.hostMayAccess a.toNat = true) :
    step s = .next { s with host := rest, mem := s.mem.write a.toNat v } := by
  rw [step_cons h]
  exact if_pos hmay

theorem step_memRead (h : s.host = .memRead a :: rest) (hmay : s.hostMayAccess a.toNat = true) :
    step s = .next { s with host := rest, hostRead := (s.mem.read a.toNat).setWidth 32 } := by
  rw [step_cons h]
  exact if_pos hmay

theorem step_memWrite_refused {v : Byte} (h : s.host = .memWrite a v :: rest)
    (hmay : ¬ s.hostMayAccess a.toNat = true) : step s = .refused .hostAccessNotPlain := by
  rw [step_cons h]
  exact if_neg hmay

end hostByte

/-- Settles O50: a store does not change which bytes the host may access, and the load reads what it wrote. -/
theorem hostStoreThenLoadReturnsTheByte : Obligations.HostStoreThenLoadReturnsTheByte := by
  unfold Obligations.HostStoreThenLoadReturnsTheByte
  intro s a v rest hhost
  refine ⟨fun hforeign => ?_, fun hplain => ?_⟩
  · exact step_memWrite_refused hhost fun hmay => (hostMayAccess_iff s _).mp hmay hforeign
  · have hmay := (hostMayAccess_iff s _).mpr hplain
    refine ⟨_, _, step_memWrite hhost hmay, step_memRead (a := a) (rest := rest) rfl hmay, rfl, ?_, ?_⟩
    · simp [read_write]
    · intro x hx
      simp [read_write, hx]

/-- A word is its four bytes, bits 7:0 last (rule R62). -/
theorem append_extract_bytes (w : Word) :
    w.extractLsb' 24 8 ++ w.extractLsb' 16 8 ++ w.extractLsb' 8 8 ++ w.extractLsb' 0 8 = w := by
  rw [BitVec.extractLsb'_append_extractLsb'_eq_extractLsb' (by omega),
    BitVec.extractLsb'_append_extractLsb'_eq_extractLsb' (by omega),
    BitVec.extractLsb'_append_extractLsb'_eq_extractLsb' (by omega)]
  exact BitVec.extractLsb'_eq_self

/-- Settles O51: each byte read is the one stored at its address. -/
theorem wordsAreLittleEndian : Obligations.WordsAreLittleEndian := by
  unfold Obligations.WordsAreLittleEndian
  intro m a w
  refine ⟨?_, read32_eq _ a, fun x hx => ?_⟩
  · simp [Memory.s32, Memory.read32, read_write, append_extract_bytes]
  · simp only [read_write]
    rw [if_neg (by omega), if_neg (by omega), if_neg (by omega), if_neg (by omega)]

end Sys2Proof.Machine
end

section
/-! SUPPORT. The planner's size and the range check over the shape's fields (rules R142 to R144, R162), and which
breach of the caller's contract a command answers with (rules R66, R73, R75). -/

namespace Sys2Proof.Machine

theorem spelledChannels_eq (p : Shape) : spelledChannels p = p.rc := (rc_eq p).symm

/-- `PlannedSize()` over the shape's fields (rules R142 to R144). -/
theorem plannedSize_eq_spelledSize (s : State) : s.plannedSize = spelledSize s := by
  unfold State.plannedSize plannedSize spelledSize
  dsimp only
  rw [spelledChannels_eq]
  by_cases h1 : unitFilter s.shape
  · have hrc : s.shape.rc = roundup s.shape.ic 8 := if_pos ((is1x1_iff _).mpr h1)
    rw [if_pos ((is1x1_iff _).mpr h1), if_pos h1, Shape.terms1x1, ← hrc]
    split_ifs <;> omega
  · have hrc : s.shape.rc = roundup s.shape.ic 16 := if_neg (mt (is1x1_iff _).mp h1)
    rw [if_neg (mt (is1x1_iff _).mp h1), if_neg h1, Shape.termsOther, ← hrc]
    split_ifs <;> omega

/-- `ValidateRange(path)` finds exactly the violations of rule R162. -/
theorem convOutOfRange_iff (s : State) (b : Bool) (p : Path) :
    s.convOutOfRange b p = true ↔ rangeViolation s b p := by
  simp only [State.convOutOfRange, rangeViolation, Bool.or_eq_true, Bool.and_eq_true, Bool.not_eq_true',
    fits_eq_false_iff, planTooLarge_iff, ← plannedSize_eq_spelledSize, or_assoc, and_assoc]
  rfl

theorem allDisjoint_iff (rs : List Range) :
    allDisjoint rs = true ↔ rs.Pairwise (fun r q => r.disjoint q = true) := by
  induction rs with
  | nil => simp [allDisjoint]
  | cons r rs ih => simp [allDisjoint, ih, List.all_eq_true]

/-- Aliasing nothing, range by range (rule R73). -/
theorem unaliased_iff (reads writes : List Range) :
    unaliased reads writes = true
      ↔ (∀ w ∈ writes, ∀ r ∈ reads, w.disjoint r = true)
        ∧ writes.Pairwise (fun w q => w.disjoint q = true) := by
  simp [unaliased, allDisjoint_iff, List.all_eq_true]

/-- A first written range that shares a byte with a range read or with another written one, or another
written range that shares one with a range read, breaks the contract (rule R73). -/
theorem not_unaliased_of_shared {reads ws : List Range} {w : Range} {a : Nat}
    (h : (w.has a = true ∧ ∃ r ∈ reads ++ ws, r.has a = true)
      ∨ ((∃ q ∈ ws, q.has a = true) ∧ ∃ r ∈ reads, r.has a = true)) :
    unaliased reads (w :: ws) = false := by
  have hshared : ∀ {r q : Range}, r.has a = true → q.has a = true → r.disjoint q ≠ true := by
    intro r q hr hq hdisj
    rw [(disjoint_iff r q).mp hdisj a hr] at hq
    cases hq
  rw [← Bool.not_eq_true, unaliased_iff, List.pairwise_cons]
  rintro ⟨hreads, hws, -⟩
  rcases h with ⟨hw, r, hr, ha⟩ | ⟨⟨q, hq, hqa⟩, r, hr, ha⟩
  · rcases List.mem_append.mp hr with hr | hr
    · exact hshared hw ha (hreads w (by simp) r hr)
    · exact hshared hw ha (hws r hr)
  · exact hshared hqa ha (hreads q (by simp [hq]) r hr)

/-- One range read and one written break the contract exactly when they share a byte (rule R73). -/
theorem unaliased_singleton_iff (r w : Range) :
    unaliased [r] [w] = true ↔ ¬ ∃ a, r.has a = true ∧ w.has a = true := by
  have hdisj : unaliased [r] [w] = w.disjoint r := by simp [unaliased, allDisjoint]
  rw [hdisj, ← Bool.not_eq_false, disjoint_eq_false_iff]
  simp only [and_comm]

section breach
variable {s : State} {reads writes scratch : List Range}

theorem breach_of_aliased (h : unaliased reads (writes ++ scratch) = false) :
    s.breach reads writes scratch = some .aliasedBuffers := by
  rw [State.breach, h]
  rfl

variable (hua : unaliased reads (writes ++ scratch) = true)
include hua

theorem breach_of_notOwned (h : meetsKind s .notOwned (reads ++ writes ++ scratch)) :
    s.breach reads writes scratch = some .bufferNotOwned := by
  rw [State.breach, if_neg (by simp [hua]), if_pos ((touches_iff _ _ _).mpr h)]

variable (hown : ¬ meetsKind s .notOwned (reads ++ writes ++ scratch))
include hown

theorem breach_of_sideEffects (h : meetsKind s .sideEffects (reads ++ writes ++ scratch)) :
    s.breach reads writes scratch = some .bufferHasSideEffects := by
  rw [State.breach, if_neg (by simp [hua]), if_neg (mt (touches_iff _ _ _).mp hown),
    if_pos ((touches_iff _ _ _).mpr h)]

variable (hplain : ¬ meetsKind s .sideEffects (reads ++ writes ++ scratch))
include hplain

/-- With no other breach, the contract lacks only what was not handed over as scratch (rule R75). -/
theorem breach_of_plain :
    s.breach reads writes scratch
      = if scratch.all s.handedOver then none else some .scratchNotHandedOver := by
  rw [State.breach, if_neg (by simp [hua]), if_neg (mt (touches_iff _ _ _).mp hown),
    if_neg (mt (touches_iff _ _ _).mp hplain)]
  cases scratch.all s.handedOver <;> rfl

end breach

/-- With one scratch range, the contract then turns on that range alone (rule R75). -/
theorem breach_of_plain_singleton {s : State} {reads writes : List Range} {r : Range}
    (hua : unaliased reads (writes ++ [r]) = true)
    (hown : ¬ meetsKind s .notOwned (reads ++ writes ++ [r]))
    (hplain : ¬ meetsKind s .sideEffects (reads ++ writes ++ [r])) :
    (¬ handedOverInFull s r → s.breach reads writes [r] = some .scratchNotHandedOver)
      ∧ (handedOverInFull s r → s.breach reads writes [r] = none) := by
  have hall : ([r].all s.handedOver) = true ↔ handedOverInFull s r := by
    simp only [List.all_cons, List.all_nil, Bool.and_true]
    exact handedOver_iff_region s r
  rw [breach_of_plain hua hown hplain]
  exact ⟨fun h => if_neg (mt hall.mp h), fun h => if_pos (hall.mpr h)⟩

section convolve
variable {i : Instr} {b : Bool} {s : State}

theorem exec_convolveForm (h : (i, b) ∈ convolveForms) (s : State) : exec i s = convolveWith b s := by
  simp only [convolveForms, List.mem_cons, Prod.mk.injEq, List.not_mem_nil, or_false] at h
  rcases h with ⟨rfl, rfl⟩ | ⟨rfl, rfl⟩ <;> rfl

variable (hform : (i, b) ∈ convolveForms) (hvalid : s.shape.valid = true)
  (hrange : ¬ rangeViolation s b s.route) (halign : s.convMisaligned b = false)
  (hsv : needsScratch s.route = true → s.status.sv = true)
include hform hvalid hrange halign hsv

/-- A CONVOLVE that passes its checks answers a breach of its contract with a fault (rule R157). -/
theorem exec_convolve_fault {f : Fault}
    (h : s.breach (s.convReads b) [s.outRange] (s.convScratch s.route) = some f) : exec i s = .fault f := by
  have hfits : s.convOutOfRange b s.route = false := by
    rwa [← Bool.not_eq_true, convOutOfRange_iff]
  have hslot : (needsScratch s.route && !s.status.sv) = false := by
    cases hneeds : needsScratch s.route with
    | false => rfl
    | true => simp [hsv hneeds]
  rw [exec_convolveForm hform, convolveWith, State.convVerdict]
  simp [hvalid, hfits, halign, hslot, h]

/-- A CONVOLVE that passes its checks and is in contract completes (rule R157). -/
theorem exec_convolve_completes
    (h : s.breach (s.convReads b) [s.outRange] (s.convScratch s.route) = none) :
    ∃ t, exec i s = .next t ∧ t.status.err = none := by
  have hfits : s.convOutOfRange b s.route = false := by
    rwa [← Bool.not_eq_true, convOutOfRange_iff]
  rw [exec_convolveForm hform, convolveWith_of_ready ⟨hvalid, hfits, halign, hsv, h⟩]
  exact ⟨_, rfl, rfl⟩

end convolve

/-- Settles O28: the output is the first range written, and the scratch footprint the rest. -/
theorem aliasedConvolveFaults : Obligations.AliasedConvolveFaults := by
  unfold Obligations.AliasedConvolveFaults
  intro i b s a hform hvalid hrange halign hsv hshared
  exact exec_convolve_fault hform hvalid hrange halign hsv
    (breach_of_aliased (not_unaliased_of_shared hshared))

/-- Settles O29, from the two breaches that follow aliasing. -/
theorem buffersOnForeignOrDeviceMemoryFault : Obligations.BuffersOnForeignOrDeviceMemoryFault := by
  unfold Obligations.BuffersOnForeignOrDeviceMemoryFault
  intro i b s hform hvalid hrange halign hsv hua
  have hfault := fun f => exec_convolve_fault (f := f) hform hvalid hrange halign hsv
  exact ⟨fun hforeign => hfault _ (breach_of_notOwned hua hforeign),
    fun hown hdevice => hfault _ (breach_of_sideEffects hua hown hdevice)⟩

/-- Settles O30: on a fast path the scratch footprint is one range, and the only breach left is its own. -/
theorem undersizedScratchFaults : Obligations.UndersizedScratchFaults := by
  unfold Obligations.UndersizedScratchFaults
  intro i b s hform hvalid hrange halign hneeds hsv hua hplain
  have hscratch : s.convScratch s.route = [s.scratchRange] := if_pos hneeds
  have hmeets : ∀ k, k ≠ .scratch → ¬ meetsKind s k (s.convReads b ++ [s.outRange] ++ [s.scratchRange]) := by
    simpa using hplain
  obtain ⟨hpart, hfull⟩ := breach_of_plain_singleton (writes := [s.outRange]) hua
    (hmeets .notOwned (by decide)) (hmeets .sideEffects (by decide))
  rw [← hscratch] at hpart hfull
  exact ⟨fun h => exec_convolve_fault hform hvalid hrange halign (fun _ => hsv) (hpart h),
    fun h => exec_convolve_completes hform hvalid hrange halign (fun _ => hsv) (hfull h)⟩

section pack
variable {i : Instr} {mode : PackMode} {s : State}

theorem exec_packForm (h : (i, mode) ∈ packForms) (s : State) : exec i s = packWith mode s := by
  simp only [packForms, List.mem_cons, Prod.mk.injEq, List.not_mem_nil, or_false] at h
  rcases h with ⟨rfl, rfl⟩ | ⟨rfl, rfl⟩ | ⟨rfl, rfl⟩ <;> rfl

variable (hform : (i, mode) ∈ packForms) (hvalid : s.shape.valid = true)
  (hfill : mode = .pad → s.shape.izp ≠ -128) (hrange : s.packOutOfRange mode = false)
  (hsv : s.status.sv = true)
include hform hvalid hfill hrange hsv

/-- A PACK that passes its checks answers a breach of its contract with a fault (rule R216). -/
theorem exec_pack_fault {f : Fault}
    (h : s.breach [s.packSource mode] [] [s.packRange mode] = some f) : exec i s = .fault f := by
  have hborder : (decide (mode = .pad) && decide (s.shape.izp = -128)) = false := by
    simpa using hfill
  rw [exec_packForm hform, packWith, State.packVerdict]
  simp [hvalid, hborder, hrange, hsv, h]

/-- A PACK that passes its checks and is in contract completes (rule R216). -/
theorem exec_pack_completes (h : s.breach [s.packSource mode] [] [s.packRange mode] = none) :
    ∃ t, exec i s = .next t ∧ t.status.err = none := by
  rw [exec_packForm hform, packWith_of_ready ⟨hvalid, hfill, hrange, hsv, h⟩]
  exact ⟨_, rfl, rfl⟩

end pack

/-- Settles O41: a PACK reads one range and writes one, which is its scratch. -/
theorem packContractBreachesFault : Obligations.PackContractBreachesFault := by
  unfold Obligations.PackContractBreachesFault
  intro i mode s hform hvalid hfill hrange hsv
  have hfault := fun f => exec_pack_fault (f := f) hform hvalid hfill hrange hsv
  have halias := unaliased_singleton_iff (s.packSource mode) (s.packRange mode)
  refine ⟨fun hshared => hfault _ (breach_of_aliased ?_),
    fun hnot hforeign => hfault _ (breach_of_notOwned (halias.mpr hnot) hforeign),
    fun hnot hown hdevice => hfault _ (breach_of_sideEffects (halias.mpr hnot) hown hdevice),
    fun hnot hown hplain => ?_⟩
  · exact Bool.eq_false_iff.mpr fun hua => halias.mp hua hshared
  · obtain ⟨hpart, hfull⟩ := breach_of_plain_singleton (writes := []) (halias.mpr hnot) hown hplain
    exact ⟨fun h => hfault _ (hpart h),
      fun h => exec_pack_completes hform hvalid hfill hrange hsv (hfull h)⟩

end Sys2Proof.Machine
end

section
/-! SUPPORT. The decoder against the encoder (rules R91, R92, R94): a word is its fields, the decoder accepts a
word only with a command's fields, and so a write of CMD runs the ten words and rejects every other. -/

namespace Sys2Proof.Machine

/-- A bit field of a word, as a number, is a slice of the word. -/
theorem ofNat_bits (v : Word) {hi lo n : Nat} (h : n = hi + 1 - lo) :
    BitVec.ofNat n (bits v hi lo) = v.extractLsb' lo n := by
  subst h
  apply BitVec.eq_of_toNat_eq
  simp [bits, Nat.shiftRight_eq_div_pow]

theorem bit_lt_two (v : Word) (k : Nat) : bits v k k < 2 := by
  have hwidth : k + 1 - k = 1 := by omega
  rw [bits, hwidth]
  exact Nat.mod_lt _ (by decide)

theorem ofBool_bit (v : Word) (k : Nat) : BitVec.ofBool (bits v k k == 1) = v.extractLsb' k 1 := by
  rw [← ofNat_bits v (by omega : 1 = k + 1 - k)]
  have hlt := bit_lt_two v k
  interval_cases bits v k k <;> rfl

/-- The fields of a word hold every bit of it (rule R91). -/
theorem word_ofWord (v : Word) : (Fields.ofWord v).word = v := by
  simp only [Fields.word, Fields.ofWord, ofBool_bit, ofNat_bits]
  rw [BitVec.extractLsb'_append_extractLsb'_eq_extractLsb' (by omega),
    BitVec.extractLsb'_append_extractLsb'_eq_extractLsb' (by omega),
    BitVec.extractLsb'_append_extractLsb'_eq_extractLsb' (by omega),
    BitVec.extractLsb'_append_extractLsb'_eq_extractLsb' (by omega)]
  exact BitVec.extractLsb'_eq_self

/-- A bit field cut in two above bit `mid` is zero exactly when both parts are. -/
theorem bits_eq_zero_iff (v : Word) {hi lo : Nat} (mid : Nat) (hlo : lo ≤ mid) (hhi : mid < hi) :
    bits v hi lo = 0 ↔ bits v mid lo = 0 ∧ bits v hi (mid + 1) = 0 := by
  have hwidth : 2 ^ (hi + 1 - lo) = 2 ^ (mid + 1 - lo) * 2 ^ (hi + 1 - (mid + 1)) := by
    rw [← pow_add]; congr 1; omega
  have hlow : 2 ^ lo * 2 ^ (mid + 1 - lo) = 2 ^ (mid + 1) := by
    rw [← pow_add]; congr 1; omega
  simp [bits, hwidth, Nat.mod_mul, Nat.div_div_eq_div_mul, hlow]

/-- The fields of a word by its bits, bits 31:12 being 0. -/
theorem ofWord_eq {v : Word} {opc b m o : Nat} (hreserved : bits v 31 12 = 0) (hopc : bits v 7 0 = opc)
    (hb : bits v 8 8 = b) (hm : bits v 10 9 = m) (ho : bits v 11 11 = o) :
    Fields.ofWord v = ⟨BitVec.ofNat 8 opc, b == 1, BitVec.ofNat 2 m, o == 1, 0#20⟩ := by
  simp [Fields.ofWord, hreserved, hopc, hb, hm, ho]

/-- A flag bit that is not 1 is 0. -/
theorem bit_eq_zero {v : Word} {k : Nat} (h : bits v k k ≠ 1) : bits v k k = 0 := by
  have hlt := bit_lt_two v k
  omega

/-- PACK's mode is the one of its three forms (rule R96). -/
theorem decodePack_ok {m : Nat} {i : Instr} (h : decodePack m = .ok i) :
    (m = 0 ∧ i = .packCin) ∨ (m = 1 ∧ i = .packCfilt) ∨ (m = 2 ∧ i = .packPad) := by
  unfold decodePack at h
  split at h <;> cases h <;> simp

/-- An accepted word has the fields of the command it selects (rules R92, R94). The cases are the opcodes: 0 to 2,
which use no flag; 3, which uses `B`; 4, which uses `O`; 5, which uses `M`; any other. -/
theorem ofWord_of_decodes {v : Word} {i : Instr} (h : decodeWord v = .ok i) : Fields.ofWord v = i.fields := by
  have hflags := bits_eq_zero_iff v (hi := 11) (lo := 8) 8 (by omega) (by omega)
  have hmo := bits_eq_zero_iff v (hi := 11) (lo := 9) 10 (by omega) (by omega)
  have hbm := bits_eq_zero_iff v (hi := 10) (lo := 8) 8 (by omega) (by omega)
  unfold decodeWord at h
  split at h
  · cases h
  next hbits =>
  have hres : bits v 31 12 = 0 := not_not.mp hbits
  split at h
  case h_1 hopc | h_2 hopc | h_3 hopc =>
    split at h
    · cases h
    next hz =>
    cases h
    obtain ⟨hb, hz⟩ := hflags.mp (not_not.mp hz)
    obtain ⟨hm, ho⟩ := hmo.mp hz
    exact ofWord_eq hres hopc hb hm ho
  case h_4 hopc =>
    split at h
    · cases h
    next hz =>
    obtain ⟨hm, ho⟩ := hmo.mp (not_not.mp hz)
    split at h <;> cases h
    next hb => exact ofWord_eq hres hopc hb hm ho
    next hb => exact ofWord_eq hres hopc (bit_eq_zero hb) hm ho
  case h_5 hopc =>
    split at h
    · cases h
    next hz =>
    obtain ⟨hb, hm⟩ := hbm.mp (not_not.mp hz)
    split at h <;> cases h
    next ho => exact ofWord_eq hres hopc hb hm ho
    next ho => exact ofWord_eq hres hopc hb hm (bit_eq_zero ho)
  case h_6 hopc =>
    split at h
    · cases h
    next hz =>
    obtain ⟨hb, ho⟩ := not_or.mp hz
    rcases decodePack_ok h with ⟨hm, rfl⟩ | ⟨hm, rfl⟩ | ⟨hm, rfl⟩ <;>
      exact ofWord_eq hres hopc (not_not.mp hb) hm (not_not.mp ho)
  case h_7 => cases h

/-- Settles O1: an accepted word is the word of its own fields, which are the command's. -/
theorem decoderAcceptsExactlyTheEncodings : Obligations.DecoderAcceptsExactlyTheEncodings := by
  unfold Obligations.DecoderAcceptsExactlyTheEncodings
  intro v i
  constructor
  · intro h
    calc v = (Fields.ofWord v).word := (word_ofWord v).symm
      _ = encode i := congrArg Fields.word (ofWord_of_decodes h)
  · rintro rfl
    exact decodeWord_encode i

/-- Settles O2: each word of the table is the encoding of its command, and the round trip says the rest. -/
theorem tableWordsDecodeToTheirCommands : Obligations.TableWordsDecodeToTheirCommands := by
  unfold Obligations.TableWordsDecodeToTheirCommands
  refine ⟨decodeWord_encode .nop, decodeWord_encode .planSize, decodeWord_encode .setScratch,
    decodeWord_encode .convolve, decodeWord_encode .convolveB, decodeWord_encode .requant,
    decodeWord_encode .requantO, decodeWord_encode .packCin, decodeWord_encode .packCfilt,
    decodeWord_encode .packPad, fun i => ?_⟩
  obtain ⟨hwf, -⟩ := roundTrip i
  exact hwf

theorem runCommand_encode (i : Instr) (s : State) : runCommand (encode i) s = exec i s :=
  runCommand_of_decodes (decodeWord_encode i) s

/-- A word that encodes no command is illegal (rules R92, R232). -/
theorem runCommand_illegal {v : Word} (h : ∀ i, v ≠ encode i) (s : State) :
    runCommand v s = .next (failedState s .illegalCmd none) := by
  unfold runCommand
  split
  · next i hdec => exact absurd ((decoderAcceptsExactlyTheEncodings v i).mp hdec) (h i)
  · rfl

/-- Settles O3: on an encoding the chain stops at the command's own word, and on any other word at none. -/
theorem cmdWriteRunsTheTenWordsAndRejectsAllOthers :
    Obligations.CmdWriteRunsTheTenWordsAndRejectsAllOthers := by
  unfold Obligations.CmdWriteRunsTheTenWordsAndRejectsAllOthers
  intro s v rest hhost
  rw [step_cmd hhost]
  by_cases hlegal : ∃ i, v = encode i
  · obtain ⟨i, rfl⟩ := hlegal
    rw [runCommand_encode]
    cases i <;> rfl
  · have hne : ∀ i, v ≠ encode i := fun i h => hlegal ⟨i, h⟩
    rw [runCommand_illegal hne]
    exact Eq.symm <| (if_neg (hne .nop)).trans <| (if_neg (hne .planSize)).trans <|
      (if_neg (hne .setScratch)).trans <| (if_neg (hne .convolve)).trans <|
      (if_neg (hne .convolveB)).trans <| (if_neg (hne .requant)).trans <|
      (if_neg (hne .requantO)).trans <| (if_neg (hne .packCin)).trans <|
      (if_neg (hne .packCfilt)).trans <| if_neg (hne .packPad)

/-- The state after SET_SCRATCH (rule R156). -/
theorem exec_setScratch (s : State) :
    exec .setScratch s = .next { s with
      scratchBase := s.regs.scratchArg
      status := { err := none, sv := decide (s.regs.scratchArg ≠ 0), path := none } } := by
  show execSetScratch s = _
  rw [execSetScratch, register_eq]
  rfl

/-- The two host writes of `REGISTER`: the operand, then the command (rules R101, R156). -/
theorem steps_of_stmtRegister {s : State} {a : Word} {rest : List HostAction}
    (h : s.host = stmtRegister a ++ rest) :
    ∃ u, step s = .next u ∧ step u = .next { s with
      regs := s.regs.set .scratchArg a
      scratchBase := a
      status := { err := none, sv := decide (a ≠ 0), path := none }
      host := rest } := by
  have harg : (s.regs.set .scratchArg a).scratchArg = a := BitVec.and_allOnes
  refine ⟨{ s with host := stmtCmd .setScratch :: rest, regs := s.regs.set .scratchArg a }, ?_, ?_⟩
  · rw [step_regWrite h (by decide)]
    exact congrArg _ (regStore_operand _ .scratchArg a)
  · rw [step_cmd rfl, runCommand_encode, exec_setScratch]
    simp only [harg]

/-- Settles O8: UNREGISTER is REGISTER with the operand 0. -/
theorem registerAndUnregisterSetTheSlot : Obligations.RegisterAndUnregisterSetTheSlot := by
  unfold Obligations.RegisterAndUnregisterSetTheSlot
  intro s a rest
  refine ⟨fun hhost ha => ?_, fun hhost => ?_⟩
  · obtain ⟨u, hstore, hcmd⟩ := steps_of_stmtRegister hhost
    exact ⟨u, _, hstore, hcmd, rfl, decide_eq_true ha, rfl, rfl⟩
  · obtain ⟨u, hstore, hcmd⟩ := steps_of_stmtRegister (a := 0) hhost
    exact ⟨u, _, hstore, hcmd, rfl, rfl, rfl, rfl⟩

end Sys2Proof.Machine
end

section
/-! SUPPORT. The requantizer's domain against the model's test of it, the output byte (rules R122, R127, R128),
and what REQUANT and REQUANT.O do with their operands (rule R120). -/

namespace Sys2Proof.Machine

theorem inDomain_iff (acc m sh : Int) : inDomain acc m sh = true ↔ requantDomain acc m sh := by
  simp only [inDomain, fitsI32, Bool.and_eq_true, decide_eq_true_iff, and_assoc]
  simp only [requantDomain, shiftMin, shiftMax, and_assoc]

/-- In its domain the requantizer answers the value of rule R121. -/
theorem rq_of_domain (f : Mulh) {acc m sh : Int} (h : requantDomain acc m sh) :
    rq f acc m sh = some (requantResult f acc m sh) :=
  if_pos ((inDomain_iff acc m sh).mpr h)

theorem rq_of_not_domain (f : Mulh) {acc m sh : Int} (h : ¬ requantDomain acc m sh) :
    rq f acc m sh = none :=
  if_neg (mt (inDomain_iff acc m sh).mp h)

theorem fitsI32_iff (v : Int) : fitsI32 v = true ↔ -2147483648 ≤ v ∧ v ≤ 2147483647 := decide_eq_true_iff

/-- A clamped value lies in a non-empty interval (rule R14). -/
theorem clamp_bounds (v : Int) {lo hi : Int} (h : lo ≤ hi) : lo ≤ clamp v lo hi ∧ clamp v lo hi ≤ hi :=
  ⟨le_min (le_max_right v lo) h, min_le_right _ hi⟩

/-- The clamp leaves the interval's own values alone (rule R14). -/
theorem clamp_eq_self {v lo hi : Int} (h : lo ≤ v ∧ v ≤ hi) : clamp v lo hi = v := by
  rw [clamp, max_eq_left h.1, min_eq_left h.2]

/-- Settles O22: a clamped value lies in the interval, whose values the clamp leaves alone. -/
theorem clampIsIdempotent : Obligations.ClampIsIdempotent := by
  unfold Obligations.ClampIsIdempotent
  exact fun v amin amax h => clamp_eq_self (clamp_bounds v h)

theorem out8_of_fits {y ozp : Int} (amin amax : Int) (h : -2147483648 ≤ y + ozp ∧ y + ozp ≤ 2147483647) :
    out8 y ozp amin amax = some (BitVec.ofInt 8 (clamp (y + ozp) amin amax)) :=
  if_pos ((fitsI32_iff _).mpr h)

theorem out8_of_not_fits {y ozp : Int} (amin amax : Int)
    (h : ¬ (-2147483648 ≤ y + ozp ∧ y + ozp ≤ 2147483647)) : out8 y ozp amin amax = none :=
  if_neg (mt (fitsI32_iff _).mp h)

/-- Settles O23: the clamped sum is a signed byte, so the byte holds it. -/
theorem outputByteLiesInTheActivationInterval : Obligations.OutputByteLiesInTheActivationInterval := by
  unfold Obligations.OutputByteLiesInTheActivationInterval
  intro y ozp amin amax
  refine ⟨fun hmin hle hmax hlo hhi => ?_, out8_of_not_fits amin amax⟩
  obtain ⟨hlower, hupper⟩ := clamp_bounds (y + ozp) hle
  have hbyte : (BitVec.ofInt 8 (clamp (y + ozp) amin amax)).toInt = clamp (y + ozp) amin amax :=
    BitVec.toInt_ofInt_eq_self (by decide) (hmin.trans hlower) (by omega)
  exact ⟨_, out8_of_fits amin amax ⟨hlo, hhi⟩, hbyte, hbyte.symm ▸ hlower, hbyte.symm ▸ hupper⟩

/-- REQUANT always completes (rule R120). -/
theorem exec_requant (s : State) :
    exec .requant s = .next { s with
      result := (s.rqOperands.map (BitVec.ofInt 32)).getD (Config.anyWord s.draws)
      status := { err := none, sv := s.status.sv, path := none }
      draws := s.draws + 1 } := rfl

/-- Settles O11, from the answer of the requantizer in its domain. -/
theorem requantInDomainReturnsTheRoundedProduct : Obligations.RequantInDomainReturnsTheRoundedProduct := by
  unfold Obligations.RequantInDomainReturnsTheRoundedProduct
  intro s hdom
  rw [exec_requant, State.rqOperands, rq_of_domain _ hdom]
  rfl

/-- Settles O12: the requantizer answers nothing, so RESULT takes the draw. -/
theorem requantOutsideDomainReturnsAFreeWord : Obligations.RequantOutsideDomainReturnsAFreeWord := by
  unfold Obligations.RequantOutsideDomainReturnsAFreeWord
  intro s hdom
  rw [exec_requant, State.rqOperands, rq_of_not_domain _ hdom]
  rfl

/-- REQUANT.O completes on output operands that pass its check (rule R120). -/
theorem exec_requantO_of_valid {s : State}
    (h : -128 ≤ s.shape.ozp ∧ s.shape.ozp ≤ 127 ∧ s.shape.amin ≤ s.shape.amax) :
    exec .requantO s = .next { s with
      result := (s.rqOutByte.getD (Config.anyByte s.draws)).signExtend 32
      status := { err := none, sv := s.status.sv, path := none }
      draws := s.draws + 1 } :=
  if_neg (by rw [Shape.outStageInvalid, decide_eq_true_iff]; omega)

/-- The byte of REQUANT.O where the requantizer is in its domain (rules R120, R127). -/
theorem rqOutByte_of_domain {s : State}
    (h : requantDomain s.regs.rqAcc.toInt s.regs.rqMult.toInt s.regs.rqShift.toInt) :
    s.rqOutByte = out8 (requantResult s.cfg.mulh s.regs.rqAcc.toInt s.regs.rqMult.toInt s.regs.rqShift.toInt)
      s.shape.ozp s.shape.amin s.shape.amax := by
  rw [State.rqOutByte, requantByte, rq_of_domain _ h, Option.bind_some]

theorem rqOutByte_of_not_domain {s : State}
    (h : ¬ requantDomain s.regs.rqAcc.toInt s.regs.rqMult.toInt s.regs.rqShift.toInt) :
    s.rqOutByte = none := by
  rw [State.rqOutByte, requantByte, rq_of_not_domain _ h, Option.bind_none]

/-- Settles O13: the byte is undefined outside the requantizer's domain and where the sum leaves 32 bits. -/
theorem requantOReturnsTheClampedByte : Obligations.RequantOReturnsTheClampedByte := by
  unfold Obligations.RequantOReturnsTheClampedByte
  intro s hops y defined
  rw [exec_requantO_of_valid hops]
  constructor
  · rintro ⟨hdom, hfits⟩
    rw [rqOutByte_of_domain hdom, out8_of_fits _ _ hfits]
    rfl
  · intro hundef
    have hnone : s.rqOutByte = none := by
      by_cases hdom : requantDomain s.regs.rqAcc.toInt s.regs.rqMult.toInt s.regs.rqShift.toInt
      · rw [rqOutByte_of_domain hdom]
        exact out8_of_not_fits _ _ fun hfits => hundef ⟨hdom, hfits⟩
      · exact rqOutByte_of_not_domain hdom
    rw [hnone]
    rfl

/-- Settles O14: the three conditions are the check of rule R120. -/
theorem requantORejectsBadOutputOperands : Obligations.RequantORejectsBadOutputOperands := by
  unfold Obligations.RequantORejectsBadOutputOperands
  exact fun s hbad => if_pos (decide_eq_true hbad)

end Sys2Proof.Machine
end

section
/-! SUPPORT. The laws of the requantizer (rules R121 to R126): the rounding shift on bits, `MULH` under both tie
settings as a rounding of the exact product, and from these the laws (a) to (f) of rule R125. -/

namespace Sys2Proof.Machine

/-! ### The rounding shift -/

/-- `rha` by magnitude and sign (rule R14). -/
theorem rha_eq_sign_mul (n : Int) (k : Nat) (hk : 1 ≤ k) :
    rha n k = (if n < 0 then -1 else 1) * ((|n| + 2 ^ (k - 1)) / 2 ^ k) := by
  rw [rha, if_neg (Nat.ne_of_gt hk), signOf]
  push_cast
  rfl

/-- `rhu` is a floor (rule R14). -/
theorem rhu_eq_ediv (n : Int) (k : Nat) (hk : 1 ≤ k) : rhu n k = (n + 2 ^ (k - 1)) / 2 ^ k := by
  rw [rhu, if_neg (Nat.ne_of_gt hk), Int.fdiv_eq_ediv_of_nonneg _ (by positivity)]

/-- `rhu` on bits: the arithmetic shift, one more when the dropped bits are at least one half. -/
theorem rhu_eq_shift_add (n : Int) (k : Nat) (hk : 1 ≤ k) :
    rhu n k = n / 2 ^ k + if 2 ^ (k - 1) ≤ n % 2 ^ k then 1 else 0 := by
  have hhalves := two_pow_halves k hk
  have hlo := Int.emod_nonneg n (b := 2 ^ k) (by positivity)
  have hhi := Int.emod_lt_of_pos n (b := 2 ^ k) (by positivity)
  have hhalf : (0 : Int) < 2 ^ (k - 1) := by positivity
  rw [rhu_eq_ediv n k hk]
  conv_lhs => rw [← Int.emod_add_mul_ediv n (2 ^ k), add_right_comm, Int.add_mul_ediv_left _ _ (by positivity),
    add_comm]
  congr 1
  split
  · rw [Int.ediv_eq_iff_of_pos (by positivity)]; omega
  · exact Int.ediv_eq_zero_of_lt (by omega) (by omega)

/-- `rha` on bits (rule R124): for a negative number the dropped bits must exceed one half. -/
theorem rha_eq_shift_add (n : Int) (k : Nat) (hk : 1 ≤ k) :
    rha n k = n / 2 ^ k + if n % 2 ^ k > 2 ^ (k - 1) - 1 + (if n < 0 then 1 else 0) then 1 else 0 := by
  rw [rha_eq_rhu n k hk, rhu_eq_shift_add n k hk]
  generalize n % 2 ^ k = r
  generalize (2 : Int) ^ (k - 1) = half
  split_ifs <;> omega

/-- Settles O21: at 31 places the shift is read off the bit form. -/
theorem roundingShiftMatchesItsBitForm : Obligations.RoundingShiftMatchesItsBitForm := by
  unfold Obligations.RoundingShiftMatchesItsBitForm
  intro h rs hfits _
  refine ⟨fun h0 => if_pos h0, rha_eq_sign_mul h rs, rha_eq_shift_add h rs, ?_⟩
  rintro rfl
  rw [fitsI32_iff] at hfits
  rw [rha_eq_shift_add h 31 (by decide)]
  split_ifs <;> omega

/-- A unit step of the number moves `rha` by at most one. -/
theorem rha_succ_le (n : Int) (k : Nat) : rha (n + 1) k ≤ rha n k + 1 := by
  rcases Nat.eq_zero_or_pos k with rfl | hk
  · exact le_rfl
  · have hhalves := two_pow_halves k hk
    have hhalf : (1 : Int) ≤ 2 ^ (k - 1) := one_le_pow₀ (by decide)
    have hn := abs_le.mp (rha_near n k hk)
    have hsucc := abs_le.mp (rha_near (n + 1) k hk)
    nlinarith

/-- A rounding shift does not grow (rule R121). -/
theorem abs_rha_le (n : Int) (k : Nat) : |rha n k| ≤ |n| :=
  rha_abs_le k (le_mul_of_one_le_right (abs_nonneg n) (one_le_pow₀ (by decide)))

/-! ### `MULH` -/

/-- Short of its saturation `MULH` under `away` rounds the exact product (rule R123). -/
theorem mulh_away {x m : Int} (h : ¬ (x = -2147483648 ∧ m = -2147483648)) :
    mulh (.tied .away) x m = rha (x * m) 31 := if_neg h

theorem mulh_up {x m : Int} (h : ¬ (x = -2147483648 ∧ m = -2147483648)) :
    mulh (.tied .up) x m = rhu (x * m) 31 := if_neg h

/-- A non-negative multiplier does not saturate `MULH` (rule R123). -/
theorem not_saturating {x m : Int} (hm : 0 ≤ m) : ¬ (x = -2147483648 ∧ m = -2147483648) := by omega

/-- `MULH` is within one half of the exact product by `2^31` (rule R123). -/
theorem mulh_tied_near (tie : MulhTie) (x : Int) {m : Int} (hm : 0 ≤ m) :
    |mulh (.tied tie) x m * 2 ^ 31 - x * m| ≤ 2 ^ 30 := by
  cases tie with
  | away => rw [mulh_away (not_saturating hm)]; exact rha_near _ 31 (by decide)
  | up => rw [mulh_up (not_saturating hm)]; exact rhu_near _ 31 (by decide)

theorem mulh_tied_mono (tie : MulhTie) {x y m : Int} (hm : 0 ≤ m) (h : x ≤ y) :
    mulh (.tied tie) x m ≤ mulh (.tied tie) y m := by
  have hprod : x * m ≤ y * m := mul_le_mul_of_nonneg_right h hm
  cases tie with
  | away => rw [mulh_away (not_saturating hm), mulh_away (not_saturating hm)]; exact rha_mono 31 hprod
  | up => rw [mulh_up (not_saturating hm), mulh_up (not_saturating hm)]; exact rhu_mono 31 hprod

/-- `MULH` does not grow: the multiplier is below `2^31` (rule R121). -/
theorem abs_mulh_tied_le (tie : MulhTie) (x : Int) {m : Int} (hm : 0 ≤ m) (hm' : m ≤ 2147483647) :
    |mulh (.tied tie) x m| ≤ |x| := by
  have hprod : |x * m| ≤ |x| * 2 ^ 31 := by
    rw [abs_mul, abs_of_nonneg hm]
    exact mul_le_mul_of_nonneg_left (by omega) (abs_nonneg x)
  cases tie with
  | away => rw [mulh_away (not_saturating hm)]; exact rha_abs_le 31 hprod
  | up => rw [mulh_up (not_saturating hm)]; exact rhu_abs_le 31 hprod

theorem mulh_tied_of_zero_product (tie : MulhTie) {x m : Int} (hm : 0 ≤ m) (h : x * m = 0) :
    mulh (.tied tie) x m = 0 := by
  have hnear := mulh_tied_near tie x hm
  rw [h, sub_zero, abs_le] at hnear
  omega

/-- The two tie settings differ by one at an exact negative tie of the product and nowhere else (rule R123). -/
theorem mulh_away_eq_up {x m : Int} (h : ¬ (x = -2147483648 ∧ m = -2147483648)) :
    mulh (.tied .away) x m =
      if x * m < 0 ∧ x * m % 2 ^ 31 = 2 ^ 30 then mulh (.tied .up) x m - 1 else mulh (.tied .up) x m := by
  rw [mulh_away h, mulh_up h]
  exact rha_eq_rhu (x * m) 31 (by decide)

/-! ### The laws of rule R125 -/

/-- Settles O15: the product is 0, and so are `MULH` and its shift. -/
theorem requantOfZeroIsZero : Obligations.RequantOfZeroIsZero := by
  unfold Obligations.RequantOfZeroIsZero
  intro tie a sh
  constructor
  · rintro -
    rw [requantResult, mulh_tied_of_zero_product tie le_rfl (mul_zero _), rha_zero]
  · rintro ⟨⟨hm, -⟩, -⟩
    rw [requantResult, mulh_tied_of_zero_product tie hm (by rw [zero_mul, zero_mul]), rha_zero]

/-- Settles O16: the left shift, `MULH` and the rounding shift each do not decrease. -/
theorem requantIsMonotoneInTheAccumulator : Obligations.RequantIsMonotoneInTheAccumulator := by
  unfold Obligations.RequantIsMonotoneInTheAccumulator
  rintro tie a b m sh ⟨⟨hm, -⟩, -⟩ - hab
  exact rha_mono _ (mulh_tied_mono tie hm (mul_le_mul_of_nonneg_right hab (by positivity)))

/-- Without a shift the requantizer is `MULH` (rule R121). -/
theorem requantResult_no_shift (f : Mulh) (a m : Int) : requantResult f a m 0 = mulh f a m := by
  simp [requantResult, rha]

/-- Settles O17: without a shift only `MULH` rounds. -/
theorem requantIsWithinHalfAUnit : Obligations.RequantIsWithinHalfAUnit := by
  unfold Obligations.RequantIsWithinHalfAUnit
  rintro tie a m ⟨⟨hm, -⟩, -⟩
  rw [requantResult_no_shift]
  exact mulh_tied_near tie a hm

/-- Settles O18: both roundings are odd. -/
theorem requantIsOddUnderTiesAway : Obligations.RequantIsOddUnderTiesAway := by
  unfold Obligations.RequantIsOddUnderTiesAway
  rintro a m sh ⟨⟨hm, -⟩, -⟩ -
  rw [requantResult, requantResult, mulh_away (not_saturating hm), mulh_away (not_saturating hm), neg_mul, neg_mul,
    rha_neg, rha_neg]

/-- Law (f) of rule R125: the rounding shift does not widen the difference of the two settings of `MULH`. -/
theorem requant_tie_settings {a m sh : Int} (hm : 0 ≤ m) :
    |requantResult (.tied .away) a m sh - requantResult (.tied .up) a m sh| ≤ 1
      ∧ (requantResult (.tied .away) a m sh ≠ requantResult (.tied .up) a m sh →
          a * 2 ^ (max sh 0).toNat * m < 0 ∧ a * 2 ^ (max sh 0).toNat * m % 2 ^ 31 = 2 ^ 30) := by
  unfold requantResult
  generalize a * 2 ^ (max sh 0).toNat = x
  generalize (max (-sh) 0).toNat = k
  rw [mulh_away_eq_up (not_saturating hm)]
  generalize mulh (.tied .up) x m = h
  split
  · next htie =>
    have hle := rha_mono k (show h - 1 ≤ h by omega)
    have hstep := rha_succ_le (h - 1) k
    rw [sub_add_cancel] at hstep
    exact ⟨abs_le.mpr (by omega), fun _ => htie⟩
  · exact ⟨by simp, fun hne => absurd rfl hne⟩

/-- Settles O19: `MULH` short of saturation is `rha` or `rhu` of the product, and law (f) follows. -/
theorem tieSettingsDifferOnlyAtNegativeTies : Obligations.TieSettingsDifferOnlyAtNegativeTies := by
  unfold Obligations.TieSettingsDifferOnlyAtNegativeTies
  refine ⟨fun x m _ _ _ _ => ⟨fun hsat tie => if_pos hsat, fun hsat => ⟨?_, ?_, mulh_away_eq_up hsat⟩⟩, ?_⟩
  · rw [mulh_away hsat]
    exact rha_eq_sign_mul (x * m) 31 (by decide)
  · rw [mulh_up hsat]
    exact rhu_eq_ediv (x * m) 31 (by decide)
  · rintro a m sh ⟨⟨hm, -⟩, -⟩
    exact requant_tie_settings hm

/-- Settles O20: neither rounding grows, and 32-bit values stay 32-bit values. -/
theorem requantIntermediatesFitTheWord : Obligations.RequantIntermediatesFitTheWord := by
  unfold Obligations.RequantIntermediatesFitTheWord
  rintro f a m sh ⟨⟨hm, hm'⟩, -, hx⟩
  have hmulh := mulh_fits f ((fitsI32_iff _).mpr hx) hm hm'
  refine ⟨?_, abs_rha_le _ _, hmulh, rha_fits _ hmulh⟩
  rintro tie rfl
  exact abs_mulh_tied_le tie _ hm hm'

end Sys2Proof.Machine
end

section
/-! SUPPORT. What PLAN_SIZE answers (rules R140, R145) and the checks of PACK in their order (rule R216). -/

namespace Sys2Proof.Machine

section planSize
variable {s : State} (hvalid : s.shape.valid = true)
include hvalid

/-- A valid shape whose planned size fits 32 bits (rule R140). -/
theorem exec_planSize_of_fits (h : s.plannedSize ≤ 2 ^ 32 - 1) :
    exec .planSize s
      = .next ({ s with result := BitVec.ofNat 32 s.plannedSize }.complete (some s.route)) := by
  have hfits : ¬ s.planTooLarge = true := fun hlarge => absurd ((planTooLarge_iff s).mp hlarge) (by omega)
  exact (if_neg (by simp [hvalid])).trans (if_neg hfits)

/-- A valid shape whose planned size does not fit 32 bits (rules R140, R149). -/
theorem exec_planSize_of_too_large (h : s.plannedSize > 2 ^ 32 - 1) :
    exec .planSize s = .next (s.raise .range (some s.route)) :=
  (if_neg (by simp [hvalid])).trans (if_pos ((planTooLarge_iff s).mpr h))

end planSize

/-- Settles O9: the spelled forms are the planner's, and the size fits 32 bits or not. -/
theorem planSizeReturnsTheSizeTermsOfTheClass : Obligations.PlanSizeReturnsTheSizeTermsOfTheClass := by
  unfold Obligations.PlanSizeReturnsTheSizeTermsOfTheClass
  intro s
  have hroute : s.route = spelledRoute s := route_eq s
  have hsize := plannedSize_eq_spelledSize s
  refine ⟨hroute, hsize, rc_eq s.shape, is1x1_iff s.shape, ?_, ?_⟩ <;> rw [← hsize, ← hroute]
  · exact exec_planSize_of_fits
  · exact exec_planSize_of_too_large

/-- Settles O10: PLAN_SIZE reads the state through the shape, the route and the planned size, on which the
two states agree. -/
theorem planSizeDependsOnTheShapeRegistersOnly : Obligations.PlanSizeDependsOnTheShapeRegistersOnly := by
  unfold Obligations.PlanSizeDependsOnTheShapeRegistersOnly
  intro s t hcfg hin hinCh hfilt hout houtCh hstride hpad hinZp houtZp hmin hmax
  have hshape : s.shape = t.shape := by
    simp only [State.shape, hin, hinCh, hfilt, hout, houtCh, hstride, hpad, hinZp, houtZp, hmin, hmax]
  have hroute : s.route = t.route := by rw [State.route, State.route, hcfg, hshape]
  have hsize : s.plannedSize = t.plannedSize := by rw [State.plannedSize, State.plannedSize, hcfg, hshape]
  cases hvalid : s.shape.valid with
  | false =>
    exact ⟨_, _, exec_invalid_shape (by decide) hvalid, exec_invalid_shape (by decide) (hshape ▸ hvalid),
      rfl, rfl, nofun⟩
  | true =>
    have hvalid' : t.shape.valid = true := hshape ▸ hvalid
    rcases le_or_gt s.plannedSize (2 ^ 32 - 1) with hfits | hlarge
    · refine ⟨_, _, exec_planSize_of_fits hvalid hfits, exec_planSize_of_fits hvalid' (hsize ▸ hfits), ?_⟩
      simp [hroute, hsize]
    · refine ⟨_, _, exec_planSize_of_too_large hvalid hlarge,
        exec_planSize_of_too_large hvalid' (hsize ▸ hlarge), ?_⟩
      simp [hroute, failed_path]

theorem packLen_eq_spelledLength (p : Shape) (mode : PackMode) : p.packLen mode = spelledLength p mode := by
  cases mode <;> simp only [spelledLength, spelledChannels_eq] <;> rfl

/-- What PACK finds out of range (rules R149, R216). -/
theorem packOutOfRange_iff (s : State) (mode : PackMode) :
    s.packOutOfRange mode = true
      ↔ (s.packSource mode).base + (s.packSource mode).len > 2 ^ 32
        ∨ spelledLength s.shape mode > 2 ^ 32 - 1
        ∨ spelledSize s > 2 ^ 32 - 1
        ∨ (s.status.sv = true ∧ s.packDst + spelledLength s.shape mode > 2 ^ 32) := by
  simp only [State.packOutOfRange, Bool.or_eq_true, Bool.and_eq_true, Bool.not_eq_true', fits_eq_false_iff,
    planTooLarge_iff, decide_eq_true_eq, State.packRange, packLen_eq_spelledLength, plannedSize_eq_spelledSize,
    or_assoc]
  rfl

section packChecks
variable {mode : PackMode} {s : State} (hvalid : s.shape.valid = true)
include hvalid

/-- The fill byte `-IZP` of PACK.PAD is no signed byte (rule R220). -/
theorem packWith_bad_fill (h : mode = .pad ∧ s.shape.izp = -128) :
    packWith mode s = .next (s.raise .shape none) := by
  obtain ⟨hpad, hizp⟩ := h
  simp [packWith, State.packVerdict, hvalid, hpad, hizp]

variable (hfill : ¬ (mode = .pad ∧ s.shape.izp = -128))
include hfill

theorem packWith_out_of_range (h : s.packOutOfRange mode = true) :
    packWith mode s = .next (s.raise .range (some s.route)) := by
  simp [packWith, State.packVerdict, hvalid, hfill, h]

theorem packWith_unregistered (hrange : s.packOutOfRange mode = false) (h : s.status.sv = false) :
    packWith mode s = .next (s.raise .noScratch (some s.route)) := by
  simp [packWith, State.packVerdict, hvalid, hfill, hrange, h]

end packChecks

/-- Settles O40: the three checks in their order. -/
theorem packRaisesItsErrorsInOrder : Obligations.PackRaisesItsErrorsInOrder := by
  unfold Obligations.PackRaisesItsErrorsInOrder
  intro i mode s hform hvalid fillBad src wraps
  have hwraps : s.packOutOfRange mode = true ↔ wraps := by
    rw [packOutOfRange_iff]
    cases mode <;> rfl
  rw [exec_packForm hform, ← hwraps, Bool.not_eq_true]
  exact ⟨packWith_bad_fill hvalid, packWith_out_of_range hvalid, packWith_unregistered hvalid⟩

end Sys2Proof.Machine
end

section
/-! SUPPORT. NOP and SET_SCRATCH (rules R155, R156), and the checks of CONVOLVE in the order of rule R157: what
each finds, and that a command reports an error only where its check finds one. -/

namespace Sys2Proof.Machine

/-! ### NOP and SET_SCRATCH -/

/-- Settles O6: NOP completes without a route, and STATUS without error, region and route is 0. -/
theorem nopClearsErrAndPathOnly : Obligations.NopClearsErrAndPathOnly := by
  unfold Obligations.NopClearsErrAndPathOnly
  refine ⟨by decide, fun s => ⟨rfl, fun hsv t hnop => ?_⟩⟩
  cases hnop
  have hstatus : (s.complete none).status = Status.zero := by
    simp [Status.completed, Status.zero, hsv]
  calc (s.complete none).regRead 0x01#8
      = (s.complete none).status.word := regRead_index _ .status
    _ = Status.zero.word := by rw [hstatus]
    _ = 0 := by decide

/-- Settles O7: both branches are the one state of `exec_setScratch`. -/
theorem setScratchRegistersReplacesOrRemoves : Obligations.SetScratchRegistersReplacesOrRemoves := by
  unfold Obligations.SetScratchRegistersReplacesOrRemoves
  refine ⟨by decide, fun s => ⟨fun hne => ?_, fun hzero => ?_⟩⟩
  · rw [exec_setScratch, decide_eq_true hne]
  · rw [exec_setScratch, hzero]
    rfl

/-! ### The shape check -/

/-- The window check of rule R161 on exact integers: where the output has a row or column, the subtraction of 1
does not underflow. -/
theorem lastWindow_cast {outDim : Nat} (stride filter inDim pad : Nat) (h : outDim ≠ 0) :
    ((outDim : Int) - 1) * stride + filter > inDim + 2 * pad
      ↔ (outDim - 1) * stride + filter > inDim + 2 * pad := by
  obtain ⟨n, rfl⟩ := Nat.exists_eq_succ_of_ne_zero h
  rw [Nat.succ_sub_one, Nat.succ_eq_add_one, Nat.cast_add, Nat.cast_one, add_sub_cancel_right]
  norm_cast

/-- `ValidateShape()` passes exactly the shapes without a violation of rule R160. -/
theorem valid_iff_not_shapeViolation (p : Shape) : p.valid = true ↔ ¬ shapeViolation p := by
  have hvalid : p.valid = true ↔ ¬ (p.zeroDim ∨ p.tooManyChannels ∨ p.zeroStride ∨ p.filterTooLarge
      ∨ p.windowOutside ∨ p.zeroPointOutside ∨ p.activationEmpty) := by
    simp only [Shape.valid, Bool.not_eq_true', ← Bool.not_eq_true, Bool.or_eq_true, or_assoc]
  rw [hvalid, not_iff_not]
  simp only [Shape.zeroDim, Shape.tooManyChannels, Shape.zeroStride, Shape.filterTooLarge,
    Shape.windowOutside, Shape.zeroPointOutside, Shape.activationEmpty, decide_eq_true_eq]
  simp only [shapeViolation, maxChannels]
  by_cases hdims : p.ow = 0 ∨ p.oh = 0
  · have hzero : p.iw = 0 ∨ p.ih = 0 ∨ p.ic = 0 ∨ p.fw = 0 ∨ p.fh = 0 ∨ p.ow = 0 ∨ p.oh = 0 ∨ p.oc = 0 := by
      omega
    exact iff_of_true (.inl hzero) (.inl hzero)
  · obtain ⟨how, hoh⟩ := not_or.mp hdims
    rw [lastWindow_cast _ _ _ _ how, lastWindow_cast _ _ _ _ hoh]

/-- What each error verdict of CONVOLVE found (rules R157, R160, R162, R163, R168). -/
theorem convVerdict_err_cause {s : State} {b : Bool} {c : ErrCode} {p : Option Path}
    (h : s.convVerdict b = .err c p) :
    (c = .shape ∧ s.shape.valid = false)
      ∨ (c = .range ∧ s.convOutOfRange b s.route = true)
      ∨ (c = .align ∧ s.convMisaligned b = true)
      ∨ (c = .noScratch ∧ needsScratch s.route = true ∧ s.status.sv = false) := by
  unfold State.convVerdict at h
  split at h
  · next hshape => cases h; exact .inl ⟨rfl, by simpa using hshape⟩
  split at h
  · next hrange => cases h; exact .inr (.inl ⟨rfl, hrange⟩)
  split at h
  · next halign => cases h; exact .inr (.inr (.inl ⟨rfl, halign⟩))
  split at h
  · next hslot => cases h; exact .inr (.inr (.inr ⟨rfl, by simpa using hslot⟩))
  split at h <;> cases h

/-- What a PACK found that reports `ERR_SHAPE` (rules R160, R216). -/
theorem packVerdict_shape_cause {s : State} {mode : PackMode} {p : Option Path}
    (h : s.packVerdict mode = .err .shape p) :
    s.shape.valid = false ∨ (mode = .pad ∧ s.shape.izp = -128) := by
  unfold State.packVerdict at h
  split at h
  · next hshape => exact .inl (by simpa using hshape)
  split at h
  · next hfill => exact .inr (by simpa using hfill)
  split at h
  · cases h
  split at h
  · cases h
  split at h <;> cases h

/-- The error a CONVOLVE reports is that of its verdict (rule R234). -/
theorem convolveWith_err {b : Bool} {s t : State} {c : ErrCode} (h : convolveWith b s = .next t)
    (herr : t.status.err = some c) : ∃ p, s.convVerdict b = .err c p := by
  rcases convolveWith_cases h with ⟨c', p, hverdict, rfl⟩ | ⟨-, rfl⟩
  · cases herr; exact ⟨p, hverdict⟩
  · cases herr

/-- The error a PACK reports is that of its verdict (rule R234). -/
theorem packWith_err {mode : PackMode} {s t : State} {c : ErrCode} (h : packWith mode s = .next t)
    (herr : t.status.err = some c) : ∃ p, s.packVerdict mode = .err c p := by
  rcases packWith_cases h with ⟨c', p, hverdict, rfl⟩ | ⟨-, rfl⟩
  · cases herr; exact ⟨p, hverdict⟩
  · cases herr

section validShape
variable {s t : State} (hvalid : s.shape.valid = true)
include hvalid

theorem execPlanSize_no_shape_err (h : exec .planSize s = .next t) : t.status.err ≠ some .shape := by
  by_cases hfits : s.plannedSize ≤ 2 ^ 32 - 1
  · cases (exec_planSize_of_fits hvalid hfits).symm.trans h
    simp
  · cases (exec_planSize_of_too_large hvalid (Nat.lt_of_not_le hfits)).symm.trans h
    simp

theorem convolveWith_no_shape_err {b : Bool} (h : convolveWith b s = .next t) :
    t.status.err ≠ some .shape := by
  intro herr
  obtain ⟨p, hverdict⟩ := convolveWith_err h herr
  rcases convVerdict_err_cause hverdict with ⟨-, hbad⟩ | ⟨⟨⟩, -⟩ | ⟨⟨⟩, -⟩ | ⟨⟨⟩, -⟩
  exact Bool.noConfusion (hvalid.symm.trans hbad)

theorem packWith_no_shape_err {mode : PackMode} (hfill : ¬ (mode = .pad ∧ s.shape.izp = -128))
    (h : packWith mode s = .next t) : t.status.err ≠ some .shape := by
  intro herr
  obtain ⟨p, hverdict⟩ := packWith_err h herr
  rcases packVerdict_shape_cause hverdict with hbad | hbad
  · exact Bool.noConfusion (hvalid.symm.trans hbad)
  · exact hfill hbad

/-- A command on a valid shape reports no `ERR_SHAPE`, but for PACK.PAD whose fill byte is no signed byte
(rules R160, R216). -/
theorem exec_no_shape_err {i : Instr} (hi : i ∈ shapeCommands) (hfill : ¬ (i = .packPad ∧ s.shape.izp = -128))
    (h : exec i s = .next t) : t.status.err ≠ some .shape := by
  simp only [shapeCommands, List.mem_cons, List.not_mem_nil, or_false] at hi
  rcases hi with rfl | rfl | rfl | rfl | rfl | rfl
  · exact execPlanSize_no_shape_err hvalid h
  · exact convolveWith_no_shape_err hvalid h
  · exact convolveWith_no_shape_err hvalid h
  · exact packWith_no_shape_err (mode := .cin) hvalid (by simp) h
  · exact packWith_no_shape_err (mode := .cfilt) hvalid (by simp) h
  · exact packWith_no_shape_err (mode := .pad) hvalid (fun hpad => hfill ⟨rfl, hpad.2⟩) h

end validShape

/-- Settles O24: the seven violations are the checks of `ValidateShape()`, the first check of each command. -/
theorem shapeViolationsRaiseErrShape : Obligations.ShapeViolationsRaiseErrShape := by
  unfold Obligations.ShapeViolationsRaiseErrShape
  intro i s hi
  refine ⟨fun hbad => ?_, fun hgood => ?_⟩
  · have hinvalid : s.shape.valid = false := by
      rw [← Bool.not_eq_true, valid_iff_not_shapeViolation, not_not]
      exact hbad
    exact exec_invalid_shape hi hinvalid
  · have hvalid := (valid_iff_not_shapeViolation s.shape).mpr hgood
    exact ⟨hvalid, fun hfill t h => exec_no_shape_err hvalid hi hfill h⟩

/-! ### The further checks of CONVOLVE -/

section convChecks
variable {b : Bool} {s : State} (hvalid : s.shape.valid = true)
include hvalid

theorem convolveWith_out_of_range (h : s.convOutOfRange b s.route = true) :
    convolveWith b s = .next (s.raise .range (some s.route)) := by
  simp [convolveWith, State.convVerdict, hvalid, h]

variable (hrange : s.convOutOfRange b s.route = false)
include hrange

theorem convolveWith_misaligned (h : s.convMisaligned b = true) :
    convolveWith b s = .next (s.raise .align (some s.route)) := by
  simp [convolveWith, State.convVerdict, hvalid, hrange, h]

theorem convolveWith_unregistered (halign : s.convMisaligned b = false)
    (hneeds : needsScratch s.route = true) (hsv : s.status.sv = false) :
    convolveWith b s = .next (s.raise .noScratch (some s.route)) := by
  simp [convolveWith, State.convVerdict, hvalid, hrange, halign, hneeds, hsv]

end convChecks

theorem convOutOfRange_eq_false_iff (s : State) (b : Bool) (p : Path) :
    s.convOutOfRange b p = false ↔ ¬ rangeViolation s b p := by
  rw [← Bool.not_eq_true, convOutOfRange_iff]

/-- `ValidateAlign()` finds exactly the misaligned arrays of rule R163. -/
theorem convMisaligned_iff (s : State) (b : Bool) :
    s.convMisaligned b = true
      ↔ s.regs.multAddr.toNat % 4 ≠ 0 ∨ s.regs.shiftAddr.toNat % 4 ≠ 0
        ∨ (b = true ∧ s.regs.biasAddr.toNat % 4 ≠ 0) := by
  simp only [State.convMisaligned, Bool.or_eq_true, Bool.and_eq_true, decide_eq_true_eq, or_assoc]

/-- A fast path is a route that needs scratch (rule R165). -/
theorem needsScratch_iff (p : Path) : needsScratch p = true ↔ p = .oneByOne ∨ p = .windowed := by
  cases p <;> decide

/-- Settles O25: `ValidateRange(path)` is the second check, and the only one that reports `ERR_RANGE`. -/
theorem convolveRaisesErrRangeForBuffersThatWrap : Obligations.ConvolveRaisesErrRangeForBuffersThatWrap := by
  unfold Obligations.ConvolveRaisesErrRangeForBuffersThatWrap
  intro i b s hform hvalid
  rw [exec_convolveForm hform, ← convOutOfRange_iff]
  refine ⟨convolveWith_out_of_range hvalid, fun hfits t h herr => ?_⟩
  obtain ⟨p, hverdict⟩ := convolveWith_err h herr
  rcases convVerdict_err_cause hverdict with ⟨⟨⟩, -⟩ | ⟨-, hbad⟩ | ⟨⟨⟩, -⟩ | ⟨⟨⟩, -⟩
  exact hfits hbad

/-- Settles O26: `ValidateAlign()` is the third check, and the only one that reports `ERR_ALIGN`. -/
theorem convolveRaisesErrAlignForMisalignedArrays : Obligations.ConvolveRaisesErrAlignForMisalignedArrays := by
  unfold Obligations.ConvolveRaisesErrAlignForMisalignedArrays
  intro i b s hform hvalid hrange
  rw [exec_convolveForm hform, ← convMisaligned_iff]
  refine ⟨convolveWith_misaligned hvalid ((convOutOfRange_eq_false_iff _ _ _).mpr hrange),
    fun haligned t h herr => ?_⟩
  obtain ⟨p, hverdict⟩ := convolveWith_err h herr
  rcases convVerdict_err_cause hverdict with ⟨⟨⟩, -⟩ | ⟨⟨⟩, -⟩ | ⟨-, hbad⟩ | ⟨⟨⟩, -⟩
  exact haligned hbad

/-- Settles O27: the slot is the fourth check, and only the fast paths need it. -/
theorem unregisteredScratchStopsTheFastPathsOnly : Obligations.UnregisteredScratchStopsTheFastPathsOnly := by
  unfold Obligations.UnregisteredScratchStopsTheFastPathsOnly
  intro i b s hform hvalid
  rw [exec_convolveForm hform, ← needsScratch_iff]
  refine ⟨fun hrange => convolveWith_unregistered hvalid ((convOutOfRange_eq_false_iff _ _ _).mpr hrange),
    fun hroute t h herr => ?_⟩
  obtain ⟨p, hverdict⟩ := convolveWith_err h herr
  rcases convVerdict_err_cause hverdict with ⟨⟨⟩, -⟩ | ⟨⟨⟩, -⟩ | ⟨⟨⟩, -⟩ | ⟨-, hneeds, -⟩
  rw [hroute] at hneeds
  cases hneeds

end Sys2Proof.Machine
end

section
/-! SUPPORT. What a CONVOLVE computes (rules R170 to R173, R191, R201 to R203, R207): the accumulator of each path
against the reference, the magnitude of its terms, and the reference element over the bytes of memory. -/

namespace Sys2Proof.Machine

/-! ### The accumulator of each path -/

/-- The input coordinates of a filter position lie inside the input (rule R172). -/
def Shape.tapInside (p : Shape) (oy ox fy fx : Nat) : Prop :=
  p.ph ≤ oy * p.sh + fy ∧ oy * p.sh + fy < p.ph + p.ih ∧ p.pw ≤ ox * p.sw + fx ∧ ox * p.sw + fx < p.pw + p.iw

/-- A filter position inside the input adds its products to `acc0` (rule R170). -/
theorem tapSum_of_inside {s : State} {oy ox oc fy fx : Nat} (h : s.shape.tapInside oy ox fy fx) :
    s.tapSum oy ox oc fy fx = sumTo s.shape.ic (fun c =>
      (s.inElem (oy * s.shape.sh + fy - s.shape.ph) (ox * s.shape.sw + fx - s.shape.pw) c + s.shape.izp)
        * s.filtElem oc fy fx c) := by
  obtain ⟨hy, hy', hx, hx'⟩ := h
  have hrow : ((oy * s.shape.sh + fy : Nat) - (s.shape.ph : Int)).toNat = oy * s.shape.sh + fy - s.shape.ph := by
    omega
  have hcol : ((ox * s.shape.sw + fx : Nat) - (s.shape.pw : Int)).toNat = ox * s.shape.sw + fx - s.shape.pw := by
    omega
  rw [State.tapSum, hrow, hcol, if_pos (by omega)]

/-- A filter position outside the input adds nothing (rules R170, R172). -/
theorem tapSum_of_outside {s : State} {oy ox oc fy fx : Nat} (h : ¬ s.shape.tapInside oy ox fy fx) :
    s.tapSum oy ox oc fy fx = 0 := by
  unfold Shape.tapInside at h
  rw [State.tapSum, if_neg (by omega)]

/-- A window of an output element of a valid shape ends inside the padded input (rule R161). -/
theorem window_lt {p : Shape} (h : p.valid = true) {oy ox fy fx : Nat} (hoy : oy < p.oh) (hox : ox < p.ow)
    (hfy : fy < p.fh) (hfx : fx < p.fw) :
    oy * p.sh + fy < p.ih + 2 * p.ph ∧ ox * p.sw + fx < p.iw + 2 * p.pw := by
  obtain ⟨hwidth, hheight⟩ := valid_window h
  have hrow : oy * p.sh ≤ (p.oh - 1) * p.sh := Nat.mul_le_mul_right _ (by omega)
  have hcol : ox * p.sw ≤ (p.ow - 1) * p.sw := Nat.mul_le_mul_right _ (by omega)
  omega

theorem unpadded_iff (p : Shape) : p.unpadded = true ↔ p.pw = 0 ∧ p.ph = 0 := decide_eq_true_iff

/-- The route to the 1×1 path is the 1×1 class (rule R166). -/
theorem route_oneByOne {s : State} (h : s.route = .oneByOne) : unitFilter s.shape := by
  rw [route_eq] at h
  split_ifs at h with hunit
  exact hunit

/-- The windowed path has no padding, or a padded copy whose border byte can hold `-IZP` (rules R166, R207). -/
theorem route_windowed {s : State} (h : s.route = .windowed) :
    s.shape.unpadded = true ∨ -127 ≤ s.shape.izp := by
  rw [route_eq] at h
  rw [unpadded_iff]
  split_ifs at h with hunit hpad hcopy
  · exact .inl hpad
  · exact .inr hcopy.2

/-- The 1×1 path computes the reference accumulator (rule R191): one filter position, inside the input. -/
theorem pixelTerms_acc0 {s : State} (hvalid : s.shape.valid = true) (hroute : s.route = .oneByOne)
    {oy ox oc : Nat} (hoy : oy < s.shape.oh) (hox : ox < s.shape.ow) :
    (s.pixelTerms oy ox oc).acc0 = s.refAcc0 oy ox oc := by
  obtain ⟨hfw, hfh, hpw, hph, hsw, hsh⟩ := route_oneByOne hroute
  have hwindow := window_lt hvalid hoy hox (fy := 0) (fx := 0) (by omega) (by omega)
  simp only [hpw, hph, hsw, hsh, mul_one, mul_zero, add_zero] at hwindow
  have hinside : s.shape.tapInside oy ox 0 0 := by
    simp only [Shape.tapInside, hpw, hph, hsw, hsh, mul_one]
    omega
  calc (s.pixelTerms oy ox oc).acc0
      = sumTo s.shape.ic (fun c => (s.inElem oy ox c + s.shape.izp) * s.filtElem oc 0 0 c) :=
        (sumTo_offset _ _ _ _).symm
    _ = s.tapSum oy ox oc 0 0 := by
        rw [tapSum_of_inside hinside]
        simp only [hpw, hph, hsw, hsh, mul_one, add_zero, Nat.sub_zero]
    _ = s.refAcc0 oy ox oc := by simp [State.refAcc0, hfh, hfw, sumTo]

/-- An element of the padded copy by its flat offset (rules R15, R213). -/
theorem padSpatialByte_offset {s : State} {y x c : Nat} (hx : x < s.shape.padWidth) (hc : c < s.shape.ic) :
    s.padSpatialByte (tensorOffset s.shape.padWidth s.shape.ic y x c) = s.padElem y x c := by
  obtain ⟨hy', hx', hc'⟩ := tensorOffset_coords (y := y) hx hc
  rw [State.padSpatialByte, hy', hx', hc']

/-- The border byte is `-IZP` where that is a signed byte (rule R213). -/
theorem fillByte_toInt {p : Shape} (hvalid : p.valid = true) (hcopy : -127 ≤ p.izp) :
    p.fillByte.toInt = -p.izp := by
  obtain ⟨⟨hlo, hhi⟩, -⟩ := valid_zeroPoints hvalid
  exact BitVec.toInt_ofInt_eq_self (by decide) (by omega) (by omega)

section windowed
variable {s : State} {y x c : Nat} (hx : x < s.shape.iw + 2 * s.shape.pw) (hc : c < s.shape.ic)
include hx hc

/-- What the windowed path reads at an offset: the input's element, or that of the padded copy (rules R202, R207). -/
theorem windowIn_offset :
    s.windowIn (tensorOffset s.shape.windowWidth s.shape.ic y x c)
      = if s.shape.unpadded then s.inElem y x c else (s.padElem y x c).toInt := by
  rw [State.windowIn, Shape.windowWidth]
  by_cases hpad : s.shape.unpadded = true
  · rw [if_pos hpad, if_pos hpad, if_pos hpad, State.inElem]
  · rw [if_neg hpad, if_neg hpad, if_neg hpad, padSpatialByte_offset hx hc]

/-- Inside the input the windowed path reads the input's element, padded copy or not (rules R202, R207). -/
theorem windowIn_of_inside (hin : s.shape.ph ≤ y ∧ y < s.shape.ph + s.shape.ih
      ∧ s.shape.pw ≤ x ∧ x < s.shape.pw + s.shape.iw) :
    s.windowIn (tensorOffset s.shape.windowWidth s.shape.ic y x c)
      = s.inElem (y - s.shape.ph) (x - s.shape.pw) c := by
  rw [windowIn_offset hx hc]
  split
  · next hpad =>
    obtain ⟨hpw, hph⟩ := (unpadded_iff _).mp hpad
    rw [hpw, hph, Nat.sub_zero, Nat.sub_zero]
  · rw [State.padElem, if_pos hin, State.inElem, Memory.s8]

/-- Outside the input it reads the border, which the zero point cancels (rules R207, R213). -/
theorem windowIn_of_border (hvalid : s.shape.valid = true) (hroute : s.route = .windowed)
    (hy : y < s.shape.ih + 2 * s.shape.ph)
    (hout : ¬ (s.shape.ph ≤ y ∧ y < s.shape.ph + s.shape.ih
      ∧ s.shape.pw ≤ x ∧ x < s.shape.pw + s.shape.iw)) :
    s.windowIn (tensorOffset s.shape.windowWidth s.shape.ic y x c) + s.shape.izp = 0 := by
  rw [windowIn_offset hx hc]
  split
  · next hpad =>
    obtain ⟨hpw, hph⟩ := (unpadded_iff _).mp hpad
    omega
  · next hpad =>
    have hcopy := (route_windowed hroute).resolve_left hpad
    rw [State.padElem, if_neg hout, fillByte_toInt hvalid hcopy, neg_add_cancel]

end windowed

/-- The products of one filter position on the windowed path are its contribution to `acc0` (rules R170, R207). -/
theorem tapSum_eq_window {s : State} (hvalid : s.shape.valid = true) (hroute : s.route = .windowed)
    {oy ox fy fx : Nat} (hoy : oy < s.shape.oh) (hox : ox < s.shape.ow) (hfy : fy < s.shape.fh)
    (hfx : fx < s.shape.fw) (oc : Nat) :
    sumTo s.shape.ic (fun c =>
        (s.windowIn (tensorOffset s.shape.windowWidth s.shape.ic (oy * s.shape.sh + fy) (ox * s.shape.sw + fx) c)
          + s.shape.izp) * s.filtElem oc fy fx c)
      = s.tapSum oy ox oc fy fx := by
  obtain ⟨hy, hx⟩ := window_lt hvalid hoy hox hfy hfx
  by_cases hinside : s.shape.tapInside oy ox fy fx
  · rw [tapSum_of_inside hinside]
    exact sumTo_congr _ _ _ fun c hc => by rw [windowIn_of_inside hx hc hinside]
  · rw [tapSum_of_outside hinside, ← sumTo_zero_fun s.shape.ic]
    exact sumTo_congr _ _ _ fun c hc => by rw [windowIn_of_border hx hc hvalid hroute hy hinside, zero_mul]

/-- A flattened filter row by its positions and channels (rule R202). -/
theorem rowDot_eq (s : State) (oy ox oc fy : Nat) :
    s.rowDot oy ox oc fy = sumTo s.shape.fw (fun fx => sumTo s.shape.ic (fun c =>
      s.windowIn (tensorOffset s.shape.windowWidth s.shape.ic (oy * s.shape.sh + fy) (ox * s.shape.sw + fx) c)
        * s.filtElem oc fy fx c)) := by
  unfold State.rowDot
  rw [sumTo_flatten]
  refine sumTo_congr _ _ _ fun fx _ => sumTo_congr _ _ _ fun c _ => ?_
  unfold State.filtElem filterOffset tensorOffset
  ring_nf

/-- The flattened filter sum by its positions and channels (rule R201). -/
theorem windowTerms_fsum (s : State) (oy ox oc : Nat) :
    (s.windowTerms oy ox oc).fsum = sumTo s.shape.fh (fun fy => sumTo s.shape.fw (fun fx =>
      sumTo s.shape.ic (fun c => s.filtElem oc fy fx c))) := by
  unfold State.windowTerms
  dsimp only
  rw [sumTo_flatten, sumTo_flatten]
  refine sumTo_congr _ _ _ fun fy _ => sumTo_congr _ _ _ fun fx _ => sumTo_congr _ _ _ fun c _ => ?_
  unfold State.filtElem filterOffset
  ring_nf

/-- The windowed path computes the reference accumulator (rules R203, R207). -/
theorem windowTerms_acc0 {s : State} (hvalid : s.shape.valid = true) (hroute : s.route = .windowed)
    {oy ox : Nat} (hoy : oy < s.shape.oh) (hox : ox < s.shape.ow) (oc : Nat) :
    (s.windowTerms oy ox oc).acc0 = s.refAcc0 oy ox oc := by
  calc (s.windowTerms oy ox oc).acc0
      = sumTo s.shape.fh (fun fy => s.rowDot oy ox oc fy)
          + (s.windowTerms oy ox oc).fsum * s.shape.izp := rfl
    _ = sumTo s.shape.fh (fun fy => sumTo s.shape.fw (fun fx => sumTo s.shape.ic (fun c =>
          (s.windowIn (tensorOffset s.shape.windowWidth s.shape.ic (oy * s.shape.sh + fy)
            (ox * s.shape.sw + fx) c) + s.shape.izp) * s.filtElem oc fy fx c))) := by
        simp only [windowTerms_fsum, rowDot_eq, sumTo_offset, sumTo_add, sumTo_mul_right]
    _ = s.refAcc0 oy ox oc :=
        sumTo_congr _ _ _ fun fy hfy => sumTo_congr _ _ _ fun fx hfx =>
          tapSum_eq_window hvalid hroute hoy hox hfy hfx oc

/-- The routed path computes the reference accumulator (rules R170, R173, R191, R203). -/
theorem pathAcc0_route {s : State} (hvalid : s.shape.valid = true) {oy ox : Nat} (hoy : oy < s.shape.oh)
    (hox : ox < s.shape.ow) (oc : Nat) : s.pathAcc0 s.route oy ox oc = s.refAcc0 oy ox oc := by
  cases hroute : s.route with
  | oneByOne => exact pixelTerms_acc0 hvalid hroute hoy hox
  | windowed => exact windowTerms_acc0 hvalid hroute hoy hox oc
  | fallback => rfl

/-- Settles O32, by the route. -/
theorem everyPathComputesTheReferenceAccumulator : Obligations.EveryPathComputesTheReferenceAccumulator := by
  unfold Obligations.EveryPathComputesTheReferenceAccumulator
  exact fun s oy ox oc hvalid hoy hox _ => pathAcc0_route hvalid hoy hox oc

/-! ### The magnitude of the terms -/

theorem abs_byte_le (v : Byte) : |v.toInt| ≤ 128 := by
  have hlo := v.le_toInt
  have hhi := v.toInt_lt
  rw [abs_le]
  omega

theorem abs_windowIn_le (s : State) (k : Nat) : |s.windowIn k| ≤ 128 := by
  unfold State.windowIn
  split <;> exact abs_byte_le _

theorem abs_izp_le {p : Shape} (hvalid : p.valid = true) : |p.izp| ≤ 128 := by
  obtain ⟨⟨hlo, hhi⟩, -⟩ := valid_zeroPoints hvalid
  rw [abs_le]
  omega

theorem abs_mul_le_of_abs_le {x w a b : Int} (hx : |x| ≤ a) (hw : |w| ≤ b) : |x * w| ≤ a * b := by
  rw [abs_mul]
  exact mul_le_mul hx hw (abs_nonneg w) ((abs_nonneg x).trans hx)

/-- A filter position adds at most 256 × 128 per channel (rule R171). -/
theorem abs_tapSum_le {s : State} (hvalid : s.shape.valid = true) (oy ox oc fy fx : Nat) :
    |s.tapSum oy ox oc fy fx| ≤ s.shape.ic * (256 * 128) := by
  by_cases hinside : s.shape.tapInside oy ox fy fx
  · rw [tapSum_of_inside hinside]
    refine sumTo_bound _ _ _ fun c _ => abs_mul_le_of_abs_le ?_ (abs_byte_le _)
    exact (abs_add_le _ _).trans (add_le_add (abs_byte_le _) (abs_izp_le hvalid))
  · rw [tapSum_of_outside hinside, abs_zero]
    positivity

/-- The reference accumulator is at most 256 × 128 per element of the filter (rule R171). -/
theorem abs_refAcc0_le {s : State} (hvalid : s.shape.valid = true) (oy ox oc : Nat) :
    |s.refAcc0 oy ox oc| ≤ s.shape.fh * (s.shape.fw * (s.shape.ic * (256 * 128))) :=
  sumTo_bound _ _ _ fun fy _ => sumTo_bound _ _ _ fun fx _ => abs_tapSum_le hvalid oy ox oc fy fx

theorem fitsI32_of_abs_le {v : Int} (h : |v| ≤ 2147483647) : fitsI32 v = true := by
  rw [abs_le] at h
  exact (fitsI32_iff v).mpr (by omega)

/-- With at most 65535 products of bytes the terms of a fast path fit 32 bits (rules R171, R191, R203). -/
theorem terms_fit {t : Terms} {n : Nat} {z : Int} (hn : n ≤ 65535) (hz : |z| ≤ 128)
    (hfsum : |t.fsum| ≤ n * 128) (hoff : t.off = t.fsum * z) (hdot : |t.dot| ≤ n * (128 * 128)) :
    (fitsI32 t.fsum && fitsI32 t.off && fitsI32 t.dot) = true := by
  have hoffset : |t.off| ≤ n * 128 * 128 := hoff ▸ abs_mul_le_of_abs_le hfsum hz
  rw [fitsI32_of_abs_le (by omega), fitsI32_of_abs_le (by omega), fitsI32_of_abs_le (by omega)]
  rfl

section smallVolume
variable {s : State} (hvalid : s.shape.valid = true) (hvol : s.shape.fw * s.shape.fh * s.shape.ic ≤ 65535)
  (oy ox oc : Nat)
include hvalid hvol

theorem refAcc0_fits : fitsI32 (s.refAcc0 oy ox oc) = true := by
  have hbound := abs_refAcc0_le hvalid oy ox oc
  have hproduct : (s.shape.fh * (s.shape.fw * (s.shape.ic * (256 * 128))) : Int)
      = (s.shape.fw * s.shape.fh * s.shape.ic : Nat) * 32768 := by
    push_cast
    ring
  exact fitsI32_of_abs_le (by omega)

theorem pixelTerms_fit : s.pathTermsFit .oneByOne oy ox oc = true := by
  obtain ⟨-, -, -, hfw, hfh, -⟩ := valid_pos hvalid
  have hchannels : s.shape.ic ≤ 65535 := (Nat.le_mul_of_pos_left _ (Nat.mul_pos hfw hfh)).trans hvol
  refine terms_fit (t := s.pixelTerms oy ox oc) hchannels (abs_izp_le hvalid) ?_ rfl ?_
  · exact sumTo_bound _ _ _ fun c _ => abs_byte_le _
  · exact sumTo_bound _ _ _ fun c _ => abs_mul_le_of_abs_le (abs_byte_le _) (abs_byte_le _)

theorem windowTerms_fit : s.pathTermsFit .windowed oy ox oc = true := by
  have hvolume : s.shape.fh * s.shape.fw * s.shape.ic ≤ 65535 := by rwa [Nat.mul_comm s.shape.fh]
  refine terms_fit (t := s.windowTerms oy ox oc) hvolume (abs_izp_le hvalid) ?_ rfl ?_
  · exact sumTo_bound _ _ _ fun k _ => abs_byte_le _
  · have hrow : ∀ fy, |s.rowDot oy ox oc fy| ≤ (s.shape.fw * s.shape.ic : Nat) * (128 * 128) := fun fy =>
      sumTo_bound _ _ _ fun k _ => abs_mul_le_of_abs_le (abs_windowIn_le s _) (abs_byte_le _)
    calc |(s.windowTerms oy ox oc).dot|
        ≤ s.shape.fh * ((s.shape.fw * s.shape.ic : Nat) * (128 * 128)) :=
          sumTo_bound _ _ _ fun fy _ => hrow fy
      _ = (s.shape.fh * s.shape.fw * s.shape.ic : Nat) * (128 * 128) := by push_cast; ring

end smallVolume

/-- Settles O33: 65535 products of magnitude at most 256 × 128 sum to less than `2^31`. -/
theorem smallFilterVolumesCannotOverflow : Obligations.SmallFilterVolumesCannotOverflow := by
  unfold Obligations.SmallFilterVolumesCannotOverflow
  intro s oy ox oc hvalid _ _ _ hvol
  refine ⟨refAcc0_fits hvalid hvol oy ox oc, ?_⟩
  cases s.route with
  | oneByOne => exact pixelTerms_fit hvalid hvol oy ox oc
  | windowed => exact windowTerms_fit hvalid hvol oy ox oc
  | fallback => rfl

/-! ### The reference element over the bytes of memory -/

/-- The requantizer and the output stage in the requantizer's domain (rules R121, R127). -/
theorem requantByte_of_domain (f : Mulh) {acc m sh : Int} (ozp amin amax : Int) (h : requantDomain acc m sh) :
    requantByte f acc m sh ozp amin amax = out8 (requantResult f acc m sh) ozp amin amax := by
  rw [requantByte, rq_of_domain f h, Option.bind_some]

theorem requantByte_of_not_domain (f : Mulh) {acc m sh : Int} (ozp amin amax : Int)
    (h : ¬ requantDomain acc m sh) : requantByte f acc m sh ozp amin amax = none := by
  rw [requantByte, rq_of_not_domain f h, Option.bind_none]

/-- The requantized accumulator of channel `oc` from `acc0` (rules R121, R170). -/
def State.channelResult (s : State) (b : Bool) (oc : Nat) (acc0 : Int) : Int :=
  requantResult s.cfg.mulh (acc0 + s.biasElem b oc) (s.multElem oc) (s.shiftElem oc)

/-- A byte is promised for `acc0` in channel `oc` (rules R122, R127, R171). -/
def State.channelDefined (s : State) (b : Bool) (oc : Nat) (acc0 : Int) : Prop :=
  (-2147483648 ≤ acc0 ∧ acc0 ≤ 2147483647)
    ∧ (-2147483648 ≤ acc0 + s.biasElem b oc ∧ acc0 + s.biasElem b oc ≤ 2147483647)
    ∧ requantDomain (acc0 + s.biasElem b oc) (s.multElem oc) (s.shiftElem oc)
    ∧ (-2147483648 ≤ s.channelResult b oc acc0 + s.shape.ozp
      ∧ s.channelResult b oc acc0 + s.shape.ozp ≤ 2147483647)

theorem finishElem_of_defined {s : State} {b : Bool} {oc : Nat} {acc0 : Int} (h : s.channelDefined b oc acc0) :
    s.finishElem b oc acc0 = some (BitVec.ofInt 8
      (clamp (s.channelResult b oc acc0 + s.shape.ozp) s.shape.amin s.shape.amax)) := by
  obtain ⟨hacc0, hacc, hdom, hout⟩ := h
  rw [State.finishElem, (fitsI32_iff _).mpr hacc0, (fitsI32_iff _).mpr hacc, requantByte_of_domain _ _ _ _ hdom]
  exact out8_of_fits _ _ hout

theorem finishElem_of_not_defined {s : State} {b : Bool} {oc : Nat} {acc0 : Int}
    (h : ¬ s.channelDefined b oc acc0) : s.finishElem b oc acc0 = none := by
  unfold State.finishElem
  dsimp only
  split
  · next hfits =>
    obtain ⟨hacc0, hacc⟩ := (Bool.and_eq_true _ _).mp hfits
    by_cases hdom : requantDomain (acc0 + s.biasElem b oc) (s.multElem oc) (s.shiftElem oc)
    · rw [requantByte_of_domain _ _ _ _ hdom]
      exact out8_of_not_fits _ _ fun hout =>
        h ⟨(fitsI32_iff _).mp hacc0, (fitsI32_iff _).mp hacc, hdom, hout⟩
    · exact requantByte_of_not_domain _ _ _ _ hdom
  · rfl

/-- `acc0` of rule R170 as a sum over the filter's positions and channels that lie inside the input. -/
theorem refAcc0_eq_sum (s : State) (oy ox oc : Nat) :
    s.refAcc0 oy ox oc = ∑ fy ∈ Finset.range s.shape.fh, ∑ fx ∈ Finset.range s.shape.fw,
      if s.shape.ph ≤ oy * s.shape.sh + fy ∧ oy * s.shape.sh + fy < s.shape.ph + s.shape.ih
          ∧ s.shape.pw ≤ ox * s.shape.sw + fx ∧ ox * s.shape.sw + fx < s.shape.pw + s.shape.iw then
        ∑ c ∈ Finset.range s.shape.ic,
          (s.inElem (oy * s.shape.sh + fy - s.shape.ph) (ox * s.shape.sw + fx - s.shape.pw) c + s.shape.izp)
            * s.filtElem oc fy fx c
      else 0 := by
  rw [State.refAcc0, sumTo_eq_sum]
  refine Finset.sum_congr rfl fun fy _ => ?_
  rw [sumTo_eq_sum]
  refine Finset.sum_congr rfl fun fx _ => ?_
  split
  · next hinside => rw [tapSum_of_inside hinside, sumTo_eq_sum]
  · next houtside => exact tapSum_of_outside houtside

/-- Settles O31: the spelled terms are the model's, and the byte follows by its two cases. -/
theorem referenceElementIsTheSpecsFormula : Obligations.ReferenceElementIsTheSpecsFormula := by
  unfold Obligations.ReferenceElementIsTheSpecsFormula
  intro s b oy ox oc p word acc0 acc m sh
  have hword : ∀ a, word a = s.mem.s32 a := fun a => congrArg BitVec.toInt (read32_eq s.mem a).symm
  have hacc0 : acc0 = s.refAcc0 oy ox oc := (refAcc0_eq_sum s oy ox oc).symm
  have hacc : acc = s.refAcc0 oy ox oc + s.biasElem b oc := by
    rw [← hacc0, State.biasElem, ← hword]
  have hm : m = s.multElem oc := hword _
  have hsh : sh = s.shiftElem oc := hword _
  rw [hacc, hm, hsh, hacc0]
  exact ⟨finishElem_of_defined, finishElem_of_not_defined⟩

end Sys2Proof.Machine
end

section
/-! SUPPORT. What a CONVOLVE that runs leaves in memory (rules R71, R74, R157), and what an output element depends
on (rule R175). -/

namespace Sys2Proof.Machine

/-! ### The value of an element -/

/-- Where the path's terms fit 32 bits, the element's value is the reference (rules R170, R175). -/
theorem pathElem_eq_convElem {s : State} (hvalid : s.shape.valid = true) {oy ox oc : Nat}
    (hoy : oy < s.shape.oh) (hox : ox < s.shape.ow) (b : Bool) (hfit : s.pathTermsFit s.route oy ox oc = true) :
    s.pathElem b s.route oy ox oc = s.convElem b oy ox oc := by
  rw [State.pathElem, if_pos hfit, pathAcc0_route hvalid hoy hox, State.convElem]

/-- Byte `k` of the output tensor is the element of that offset, or its draw (rule R71). -/
theorem outByte_offset {s : State} (b : Bool) (path : Path) (oy : Nat) {ox oc : Nat} (hox : ox < s.shape.ow)
    (hoc : oc < s.shape.oc) :
    s.outByte b path (tensorOffset s.shape.ow s.shape.oc oy ox oc)
      = (s.pathElem b path oy ox oc).getD
          (Config.anyByte (s.draws + tensorOffset s.shape.ow s.shape.oc oy ox oc)) := by
  obtain ⟨hrow, hcol, hchannel⟩ := tensorOffset_coords (y := oy) hox hoc
  rw [State.outByte, hrow, hcol, hchannel]

/-! ### Memory after a CONVOLVE -/

/-- In contract the output tensor and the scratch footprint share no byte (rule R73). -/
theorem convReady_out_disjoint_scratch {s : State} {b : Bool} (h : s.convReady b)
    (hneeds : needsScratch s.route = true) : s.outRange.disjoint s.scratchRange = true := by
  obtain ⟨-, -, -, -, hbreach⟩ := h
  obtain ⟨hua, -⟩ := breach_eq_none hbreach
  obtain ⟨-, hpair⟩ := (unaliased_iff _ _).mp hua
  have hscratch : s.scratchRange ∈ s.convScratch s.route := by simp [State.convScratch, hneeds]
  exact (List.pairwise_cons.mp hpair).1 _ hscratch

/-- Memory after a CONVOLVE, byte by byte: scratch draws, then the output tensor, else what it was. -/
theorem read_convMem (s : State) (b : Bool) (path : Path) (a : Nat) :
    (s.convMem b path).read a
      = if needsScratch path = true ∧ s.scratchRange.has a = true then
          Config.anyByte (s.draws + s.shape.outLen + (a - s.scratchBase.toNat))
        else if s.outRange.has a = true then s.outByte b path (a - s.regs.outAddr.toNat)
        else s.mem.read a := by
  simp only [State.convMem, has_iff, State.scratchRange, State.outRange]
  split
  · next hneeds =>
    rw [read_anyBytes, read_writeBytes_map]
    simp only [hneeds, true_and]
  · next hneeds =>
    simp only [hneeds]
    exact read_writeBytes_map _ _ _ _ _

section convMem
variable {s : State} {b : Bool} (h : s.convReady b)
include h

/-- A byte of the output tensor (rule R71). -/
theorem read_convMem_out {k : Nat} (hk : k < s.shape.outLen) :
    (s.convMem b s.route).read (s.regs.outAddr.toNat + k) = s.outByte b s.route k := by
  have hout : s.outRange.has (s.regs.outAddr.toNat + k) = true :=
    (has_iff _ _).mpr ⟨Nat.le_add_right _ _, Nat.add_lt_add_left hk _⟩
  have hscratch : ¬ (needsScratch s.route = true ∧ s.scratchRange.has (s.regs.outAddr.toNat + k) = true) := by
    rintro ⟨hneeds, hhas⟩
    have hfree := (disjoint_iff _ _).mp (convReady_out_disjoint_scratch h hneeds) _ hout
    exact Bool.noConfusion (hhas.symm.trans hfree)
  rw [read_convMem, if_neg hscratch, if_pos hout, Nat.add_sub_cancel_left]

/-- The byte of an output element (rules R15, R71). -/
theorem read_convMem_element {oy ox oc : Nat} (hoy : oy < s.shape.oh) (hox : ox < s.shape.ow)
    (hoc : oc < s.shape.oc) :
    (s.convMem b s.route).read (s.outElemAddr oy ox oc)
      = (s.pathElem b s.route oy ox oc).getD
          (Config.anyByte (s.draws + tensorOffset s.shape.ow s.shape.oc oy ox oc)) :=
  (read_convMem_out h (tensorOffset_lt hoy hox hoc)).trans (outByte_offset b s.route oy hox hoc)

end convMem

/-- A byte of the scratch footprint is a draw of its own (rule R74). -/
theorem read_convMem_scratch {s : State} (b : Bool) {path : Path} (hneeds : needsScratch path = true) {k : Nat}
    (hk : k < s.plannedSize) :
    (s.convMem b path).read (s.scratchBase.toNat + k) = Config.anyByte (s.draws + s.shape.outLen + k) := by
  have hscratch : s.scratchRange.has (s.scratchBase.toNat + k) = true :=
    (has_iff _ _).mpr ⟨Nat.le_add_right _ _, Nat.add_lt_add_left hk _⟩
  rw [read_convMem, if_pos ⟨hneeds, hscratch⟩, Nat.add_sub_cancel_left]

/-- No other byte changes (rules R71, R72). -/
theorem read_convMem_frame {s : State} (b : Bool) {path : Path} {a : Nat} (hout : s.outRange.has a = false)
    (hscratch : needsScratch path = true → s.scratchRange.has a = false) :
    (s.convMem b path).read a = s.mem.read a := by
  have hnot : ¬ (needsScratch path = true ∧ s.scratchRange.has a = true) := fun hboth =>
    Bool.noConfusion (hboth.2.symm.trans (hscratch hboth.1))
  rw [read_convMem, if_neg hnot, if_neg (Bool.eq_false_iff.mp hout)]

/-- Settles O34, from what a CONVOLVE that is ready leaves in memory. -/
theorem convolveWritesTheReferenceOutput : Obligations.ConvolveWritesTheReferenceOutput := by
  unfold Obligations.ConvolveWritesTheReferenceOutput
  intro i b s hform hready
  have hexec := (exec_convolveForm hform s).trans (convolveWith_of_ready hready)
  refine ⟨_, hexec, rfl, rfl, rfl, rfl, rfl, rfl, rfl, rfl, rfl, ?_, fun a => read_convMem_frame b⟩
  intro oy ox oc v hoy hox hoc hfit hvalue
  have hvalid : s.shape.valid = true := hready.1
  calc (s.convMem b s.route).read (s.outElemAddr oy ox oc)
      = (s.pathElem b s.route oy ox oc).getD _ := read_convMem_element hready hoy hox hoc
    _ = v := by rw [pathElem_eq_convElem hvalid hoy hox b hfit, hvalue, Option.getD_some]

/-- Settles O35: an element without a value and a byte of scratch each hold their draw. -/
theorem convolveLeavesFreeValuesWhereNoneIsPromised :
    Obligations.ConvolveLeavesFreeValuesWhereNoneIsPromised := by
  unfold Obligations.ConvolveLeavesFreeValuesWhereNoneIsPromised
  intro i b s hform hready
  have hexec := (exec_convolveForm hform s).trans (convolveWith_of_ready hready)
  refine ⟨_, hexec, ?_, fun hneeds k hk => read_convMem_scratch b hneeds hk, (Nat.add_assoc _ _ _).le⟩
  intro oy ox oc hoy hox hoc hnone
  calc (s.convMem b s.route).read (s.outElemAddr oy ox oc)
      = (s.pathElem b s.route oy ox oc).getD _ := read_convMem_element hready hoy hox hoc
    _ = _ := by rw [hnone, Option.getD_none]

/-! ### What an output element depends on -/

/-- A channel's word is read from the channel's four bytes of the array (rules R62, R69, R70). -/
theorem s32_congr {m m' : Memory} {a a' n oc : Nat} (h : ∀ k, k < 4 * n → m.read (a + k) = m'.read (a' + k))
    (hoc : oc < n) : m.s32 (a + 4 * oc) = m'.s32 (a' + 4 * oc) := by
  have hbyte : ∀ j, j < 4 → m.read (a + 4 * oc + j) = m'.read (a' + 4 * oc + j) := fun j hj => by
    rw [Nat.add_assoc, Nat.add_assoc, h _ (by omega)]
  have h0 := hbyte 0 (by decide)
  simp only [Nat.add_zero] at h0
  rw [Memory.s32, Memory.s32, Memory.read32, Memory.read32, hbyte 3 (by decide), hbyte 2 (by decide),
    hbyte 1 (by decide), h0]

section congr
variable {s t : State} (hshape : s.shape = t.shape)
include hshape

section accumulator
variable
  (hin : ∀ k, k < s.shape.inLen →
    s.mem.read (s.regs.inAddr.toNat + k) = t.mem.read (t.regs.inAddr.toNat + k))
  (hfilt : ∀ k, k < s.shape.filtLen →
    s.mem.read (s.regs.filtAddr.toNat + k) = t.mem.read (t.regs.filtAddr.toNat + k))
include hfilt

theorem filtElem_congr {oc fy fx c : Nat} (hoc : oc < s.shape.oc) (hfy : fy < s.shape.fh) (hfx : fx < s.shape.fw)
    (hc : c < s.shape.ic) : s.filtElem oc fy fx c = t.filtElem oc fy fx c := by
  rw [State.filtElem, State.filtElem, Memory.s8, Memory.s8, hfilt _ (filterOffset_lt hoc hfy hfx hc), hshape]

include hin

theorem tapSum_congr {oc fy fx : Nat} (oy ox : Nat) (hoc : oc < s.shape.oc) (hfy : fy < s.shape.fh)
    (hfx : fx < s.shape.fw) : s.tapSum oy ox oc fy fx = t.tapSum oy ox oc fy fx := by
  by_cases hinside : s.shape.tapInside oy ox fy fx
  · rw [tapSum_of_inside hinside, tapSum_of_inside (hshape ▸ hinside), ← hshape]
    obtain ⟨hy, hy', hx, hx'⟩ := hinside
    refine sumTo_congr _ _ _ fun c hc => ?_
    have hoffset := tensorOffset_lt (H := s.shape.ih) (y := oy * s.shape.sh + fy - s.shape.ph)
      (W := s.shape.iw) (x := ox * s.shape.sw + fx - s.shape.pw) (by omega) (by omega) hc
    rw [filtElem_congr hshape hfilt hoc hfy hfx hc, State.inElem, State.inElem, Memory.s8, Memory.s8,
      hin _ hoffset, hshape]
  · rw [tapSum_of_outside hinside, tapSum_of_outside (hshape ▸ hinside)]

theorem refAcc0_congr {oc : Nat} (oy ox : Nat) (hoc : oc < s.shape.oc) :
    s.refAcc0 oy ox oc = t.refAcc0 oy ox oc := by
  rw [State.refAcc0, State.refAcc0, ← hshape]
  exact sumTo_congr _ _ _ fun fy hfy => sumTo_congr _ _ _ fun fx hfx =>
    tapSum_congr hshape hin hfilt oy ox hoc hfy hfx

end accumulator

/-- The output stage reads the shape, `MULH` and the channel's bias, multiplier and shift (rules R129, R170). -/
theorem finishElem_congr {b : Bool} {oc : Nat} (acc0 : Int) (hmulh : s.cfg.mulh = t.cfg.mulh)
    (hbias : s.biasElem b oc = t.biasElem b oc) (hmult : s.multElem oc = t.multElem oc)
    (hshift : s.shiftElem oc = t.shiftElem oc) : s.finishElem b oc acc0 = t.finishElem b oc acc0 := by
  simp only [State.finishElem, hmulh, hbias, hmult, hshift, hshape]

end congr

/-- Settles O36: on both routes the element is the reference, which reads the five buffers only. -/
theorem outputDependsOnShapeFlagAndBuffersOnly : Obligations.OutputDependsOnShapeFlagAndBuffersOnly := by
  unfold Obligations.OutputDependsOnShapeFlagAndBuffersOnly
  intro b s t hshape hmulh hvalid hin hfilt hmult hshift hbias oy ox oc hoy hox hoc hsfit htfit
  have hbiasElem : s.biasElem b oc = t.biasElem b oc := by
    rw [State.biasElem, State.biasElem]
    by_cases hb : b = true
    · rw [if_pos hb, if_pos hb, s32_congr (hbias hb) hoc]
    · rw [if_neg hb, if_neg hb]
  calc s.pathElem b s.route oy ox oc
      = s.finishElem b oc (s.refAcc0 oy ox oc) := pathElem_eq_convElem hvalid hoy hox b hsfit
    _ = t.finishElem b oc (s.refAcc0 oy ox oc) :=
        finishElem_congr hshape _ hmulh hbiasElem (s32_congr hmult hoc) (s32_congr hshift hoc)
    _ = t.finishElem b oc (t.refAcc0 oy ox oc) := by rw [refAcc0_congr hshape hin hfilt oy ox hoc]
    _ = t.pathElem b t.route oy ox oc :=
        (pathElem_eq_convElem (hshape ▸ hvalid) (hshape ▸ hoy) (hshape ▸ hox) b htfit).symm

end Sys2Proof.Machine
end

section
/-! SUPPORT. The lanes of the channel-padded copies that PACK.CIN and PACK.CFILT write (rules R211, R218, R219). -/

namespace Sys2Proof.Machine

/-- Lane `c` of group `n` holds the byte of channel `c`, and zero past the channels (rule R211). -/
theorem padChannelsByte_lane (m : Memory) (base ch n : Nat) {rc c : Nat} (hc : c < rc) :
    padChannelsByte m base ch rc (n * rc + c) = if c < ch then m.read (base + (n * ch + c)) else 0 := by
  have hgroup : (n * rc + c) / rc = n := by
    rw [Nat.mul_comm, Nat.mul_add_div (by omega), Nat.div_eq_of_lt hc, Nat.add_zero]
  have hlane : (n * rc + c) % rc = c := by
    rw [Nat.mul_comm, Nat.mul_add_mod, Nat.mod_eq_of_lt hc]
  rw [padChannelsByte, hgroup, hlane]

section lanes
variable {s : State} {c : Nat} (hc : c < s.shape.rc)
include hc

/-- A lane of a PACK.CIN pixel is the input's element, or zero (rule R218). -/
theorem packByte_cin_lane (y x : Nat) :
    (s.packByte .cin ((y * s.shape.iw + x) * s.shape.rc + c)).toInt
      = if c < s.shape.ic then s.inElem y x c else 0 := by
  rw [State.packByte, padChannelsByte_lane _ _ _ _ hc, apply_ite BitVec.toInt]
  rfl

/-- A lane of a PACK.CFILT filter position is the filter's element, or zero (rule R219). -/
theorem packByte_cfilt_lane (oc fy fx : Nat) :
    (s.packByte .cfilt (((oc * s.shape.fh + fy) * s.shape.fw + fx) * s.shape.rc + c)).toInt
      = if c < s.shape.ic then s.filtElem oc fy fx c else 0 := by
  rw [State.packByte, padChannelsByte_lane _ _ _ _ hc, apply_ite BitVec.toInt]
  rfl

end lanes

/-- A sum whose terms past the first `m` vanish is the sum of those `m` (rules R194, R215). -/
theorem sum_range_ite_lt {m n : Nat} (f : Nat → Int) (h : m ≤ n) :
    ∑ c ∈ Finset.range n, (if c < m then f c else 0) = ∑ c ∈ Finset.range m, f c := by
  rw [← Finset.sum_filter]
  congr 1
  ext c
  rw [Finset.mem_filter, Finset.mem_range, Finset.mem_range]
  omega

/-- Settles O44: the lanes past the channels are zero, and the others are the tensor's elements. -/
theorem channelPaddingChangesNoDotProduct : Obligations.ChannelPaddingChangesNoDotProduct := by
  unfold Obligations.ChannelPaddingChangesNoDotProduct
  intro s y x oc _ hunit _ _ _ lanes
  have hlanes : lanes = s.shape.rc := by rw [← spelledChannels_eq, spelledChannels, if_pos hunit]
  obtain ⟨hfw, hfh, -⟩ := hunit
  have hfilter : oc * lanes = ((oc * s.shape.fh + 0) * s.shape.fw + 0) * s.shape.rc := by
    rw [hlanes, hfw, hfh, add_zero, add_zero, mul_one, mul_one]
  have hproduct : ∀ c < lanes, (s.packByte .cin ((y * s.shape.iw + x) * lanes + c)).toInt
        * (s.packByte .cfilt (oc * lanes + c)).toInt
      = if c < s.shape.ic then s.inElem y x c * s.filtElem oc 0 0 c else 0 := by
    intro c hc
    rw [hlanes] at hc
    rw [hfilter, hlanes, packByte_cin_lane hc, packByte_cfilt_lane hc]
    split
    · rfl
    · exact zero_mul 0
  calc _ = ∑ c ∈ Finset.range lanes, if c < s.shape.ic then s.inElem y x c * s.filtElem oc 0 0 c else 0 :=
        Finset.sum_congr rfl fun c hc => hproduct c (Finset.mem_range.mp hc)
    _ = ∑ c ∈ Finset.range s.shape.ic, s.inElem y x c * s.filtElem oc 0 0 c :=
        sum_range_ite_lt _ (hlanes ▸ le_rc s.shape)

end Sys2Proof.Machine
end

section
/-! SUPPORT. What a PACK that runs leaves in memory (rules R213, R216 to R220), where its destination lies
(rule R212), and that the planned region holds the copy (rules R11, R142 to R144). -/

namespace Sys2Proof.Machine

/-! ### The destination -/

theorem alignBoundary_pos (c : Config) : 0 < c.alignBoundary := Nat.two_pow_pos _

/-- The aligned destination is fewer than `ALIGN_BOUNDARY` bytes above SCRATCH_BASE (rule R212). -/
theorem packDst_le (s : State) : s.packDst ≤ s.scratchBase.toNat + (s.cfg.alignBoundary - 1) :=
  roundup_le _ _ (alignBoundary_pos _)

/-- Settles O42: the destination is `roundup` of SCRATCH_BASE to the positive `ALIGN_BOUNDARY`. -/
theorem packDestinationIsTheAlignedScratchBase : Obligations.PackDestinationIsTheAlignedScratchBase := by
  unfold Obligations.PackDestinationIsTheAlignedScratchBase
  intro s
  exact ⟨Nat.mul_mod_right _ _, le_roundup _ _ (alignBoundary_pos _),
    Nat.sub_le_iff_le_add'.mpr (packDst_le s)⟩

/-! ### The planned region -/

/-- With legal alignment parameters `ALIGN_SLACK` pays for the alignment, so a copy no longer than the size
terms ends inside the planned region (rules R11, R144). -/
theorem packDst_add_le {s : State} (hlegal : s.cfg.legal = true) {n terms : Nat} (h : n ≤ terms) :
    s.packDst + n ≤ s.scratchBase.toNat + (terms + s.cfg.alignSlack) := by
  have hslack : s.cfg.alignBoundary - 1 ≤ s.cfg.alignSlack := of_decide_eq_true hlegal
  have hdst := packDst_le s
  omega

/-- Settles O43: in each case the length of the copy is one of the planner's size terms. -/
theorem plannedRegionHoldsThePackedCopy : Obligations.PlannedRegionHoldsThePackedCopy := by
  unfold Obligations.PlannedRegionHoldsThePackedCopy
  intro s mode _ hlegal hreserved
  refine packDst_add_le hlegal ?_
  rcases hreserved with ⟨hunit, hrounded, hmode⟩ | ⟨hother, rfl⟩ | ⟨hpadded, rfl⟩
  · rw [if_pos hunit, if_pos hrounded]
    cases mode with
    | cin =>
      have hlen : spelledLength s.shape .cin = s.shape.iw * s.shape.ih * spelledChannels s.shape := by
        rw [spelledLength, Nat.mul_comm s.shape.ih]
      omega
    | cfilt =>
      have hlen : spelledLength s.shape .cfilt = spelledChannels s.shape * s.shape.oc := by
        obtain ⟨hfw, hfh, -⟩ := hunit
        rw [spelledLength, hfw, hfh, Nat.mul_one, Nat.mul_one, Nat.mul_comm]
      omega
    | pad => exact absurd rfl hmode
  · have hlen : spelledLength s.shape .cfilt
        = s.shape.fw * s.shape.fh * spelledChannels s.shape * s.shape.oc := by
      rw [spelledLength]; ring
    rw [if_neg hother]
    omega
  · have hother : ¬ unitFilter s.shape := fun ⟨_, _, hpw, hph, _⟩ => hpadded ⟨hpw, hph⟩
    have hlen : spelledLength s.shape .pad
        = (s.shape.iw + 2 * s.shape.pw) * (s.shape.ih + 2 * s.shape.ph) * s.shape.ic := by
      rw [spelledLength, Nat.mul_comm (s.shape.ih + _)]
    rw [if_neg hother, if_neg hpadded]
    omega

/-! ### Memory after a PACK -/

/-- Memory after a PACK, byte by byte: the copy from the destination, else what it was (rule R216). -/
theorem read_packed (s : State) (mode : PackMode) (path : Path) (a : Nat) :
    (s.packed mode path).mem.read a
      = if s.packDst ≤ a ∧ a < s.packDst + spelledLength s.shape mode then s.packByte mode (a - s.packDst)
        else s.mem.read a := by
  rw [← packLen_eq_spelledLength]
  exact read_writeBytes_map _ _ _ _ _

/-- A byte of the copy (rule R216). -/
theorem read_packed_copy (s : State) {mode : PackMode} (path : Path) {k : Nat}
    (hk : k < spelledLength s.shape mode) :
    (s.packed mode path).mem.read (s.packDst + k) = s.packByte mode k := by
  rw [read_packed, if_pos ⟨Nat.le_add_right _ _, Nat.add_lt_add_left hk _⟩, Nat.add_sub_cancel_left]

/-- No other byte changes (rule R216). -/
theorem read_packed_frame (s : State) (mode : PackMode) (path : Path) {a : Nat}
    (h : a < s.packDst ∨ s.packDst + spelledLength s.shape mode ≤ a) :
    (s.packed mode path).mem.read a = s.mem.read a := by
  rw [read_packed, if_neg (by omega)]

/-! ### The copy of each mode -/

/-- Settles O37: a pixel's lanes are those of a channel-padded group. -/
theorem packCinChannelPadsTheInput : Obligations.PackCinChannelPadsTheInput := by
  unfold Obligations.PackCinChannelPadsTheInput
  intro s hready
  refine ⟨s.packed .cin s.route, packWith_of_ready hready, rfl, ?_,
    fun a => read_packed_frame s .cin s.route⟩
  intro y x c hy hx hc
  rw [read_packed_copy s s.route (tensorOffset_lt hy hx hc)]
  rw [spelledChannels_eq] at hc ⊢
  exact padChannelsByte_lane _ _ _ _ hc

/-- Settles O38: a filter position's lanes are those of a channel-padded group; the filter is a tensor of
`OC × FH` rows. -/
theorem packCfiltChannelPadsTheFilter : Obligations.PackCfiltChannelPadsTheFilter := by
  unfold Obligations.PackCfiltChannelPadsTheFilter
  intro s hready
  refine ⟨s.packed .cfilt s.route, packWith_of_ready hready, rfl, ?_,
    fun a => read_packed_frame s .cfilt s.route⟩
  intro oc fy fx c hoc hfy hfx hc
  have hrow : oc * s.shape.fh + fy < s.shape.oc * s.shape.fh := by
    rw [Nat.mul_comm oc]
    exact Nat.mul_add_lt_mul_of_lt_of_lt hoc hfy
  rw [read_packed_copy s s.route (tensorOffset_lt hrow hfx hc)]
  rw [spelledChannels_eq] at hc ⊢
  exact padChannelsByte_lane _ _ _ _ hc

/-- Settles O39: a byte of the copy is the element of `PadSpatial(In)` at its offset. -/
theorem packPadWritesTheBorderedInput : Obligations.PackPadWritesTheBorderedInput := by
  unfold Obligations.PackPadWritesTheBorderedInput
  intro s hready
  refine ⟨s.packed .pad s.route, packWith_of_ready hready, rfl, ?_,
    fun a => read_packed_frame s .pad s.route⟩
  intro y x c hy hx hc
  rw [read_packed_copy s s.route (tensorOffset_lt hy hx hc)]
  exact padSpatialByte_offset hx hc

end Sys2Proof.Machine
end

section
/-! SUPPORT. The one exception entry of the block (rules R232, R234): the illegal words by their bits, and the state
after a command that failed. -/

namespace Sys2Proof.Machine

/-- A word is illegal by its bits (rules R98, R232): bits 31:12, the opcode, the flag `B`, the mode `M`, the flag
`O`, or PACK's reserved mode. -/
def illegalBits (v : Word) : Prop :=
  bits v 7 0 > 5 ∨ bits v 31 12 ≠ 0 ∨ (bits v 8 8 = 1 ∧ bits v 7 0 ≠ 3)
    ∨ (bits v 10 9 ≠ 0 ∧ bits v 7 0 ≠ 5) ∨ (bits v 11 11 = 1 ∧ bits v 7 0 ≠ 4)
    ∨ (bits v 7 0 = 5 ∧ bits v 10 9 = 3)

/-- The encoding of a command has none of the illegal bits (rule R94). -/
theorem not_illegalBits_encode (i : Instr) : ¬ illegalBits (encode i) := by
  unfold illegalBits
  cases i <;> decide

theorem runCommand_of_illegalBits {v : Word} (h : illegalBits v) (s : State) :
    runCommand v s = .next (failedState s .illegalCmd none) := by
  refine runCommand_illegal ?_ s
  rintro i rfl
  exact not_illegalBits_encode i h

/-- Settles O4: a word with illegal bits encodes no command. -/
theorem illegalWordChangesOnlyStatusAndErrlog : Obligations.IllegalWordChangesOnlyStatusAndErrlog := by
  unfold Obligations.IllegalWordChangesOnlyStatusAndErrlog
  intro s v rest hhost hbits
  rw [step_cmd hhost, runCommand_of_illegalBits hbits]
  rfl

/-- What `raise` writes: the code, the path rule R234 gives it, and the code's ERRLOG bit. -/
theorem raise_eq_failedState (s : State) (c : ErrCode) (p : Option Path) :
    s.raise c p = failedState s c (s.status.failed c p).path := rfl

/-- How a command that reports an error ended: with that error raised, and with the route where one was computed
(rules R167, R234). -/
theorem runCommand_err {v : Word} {s t : State} {c : ErrCode} (h : runCommand v s = .next t)
    (herr : t.status.err = some c) :
    ∃ p, t = s.raise c p ∧ (¬ (c = .illegalCmd ∨ c = .shape) → p = some s.route) := by
  rcases runCommand_cases h with ⟨i, hi⟩ | rfl
  · rcases exec_cases hi with ⟨d, p, rfl, hpath⟩ | ⟨hnone, -⟩
    · cases herr
      refine ⟨p, rfl, fun hc => ?_⟩
      rcases hpath with ⟨hshape, -⟩ | ⟨-, -, hroute⟩
      · exact absurd (.inr hshape) hc
      · exact hroute
    · rw [hnone] at herr
      cases herr
  · cases herr
    exact ⟨none, rfl, fun hc => absurd (.inl rfl) hc⟩

/-- Settles O52: the error was raised, and the path `raise` writes is that of the code. -/
theorem failedCommandChangesOnlyStatusAndErrlog : Obligations.FailedCommandChangesOnlyStatusAndErrlog := by
  unfold Obligations.FailedCommandChangesOnlyStatusAndErrlog
  intro v s t c h herr
  obtain ⟨p, rfl, hroute⟩ := runCommand_err h herr
  rw [raise_eq_failedState]
  split
  · next hc => rw [failed_path_none _ _ _ hc]
  · next hc =>
    obtain ⟨hcmd, hshape⟩ := not_or.mp hc
    rw [failed_path _ _ _ hcmd hshape, hroute hc]

end Sys2Proof.Machine
end

section
/-! SUPPORT. A reset while a command executes: registers cleared, draws over the command's write footprint, and
nothing else (rules R60, R71, R72, R216, R262). -/

namespace Sys2Proof.Machine

/-! ### Memory after draws over a list of ranges -/

/-- Draws change no byte outside the ranges (rules R74, R262). -/
theorem read_havoc_frame (rs : List Range) (s : State) {a : Nat} (h : ∀ r ∈ rs, r.has a = false) :
    (s.havoc rs).mem.read a = s.mem.read a := by
  induction rs generalizing s with
  | nil => rfl
  | cons r rs ih =>
    obtain ⟨hr, hrs⟩ := List.forall_mem_cons.mp h
    rw [State.havoc, ih _ hrs, read_anyBytes, if_neg ((has_iff r a).not.mp (Bool.eq_false_iff.mp hr))]

/-- A byte of the first range holds its draw, unless a later range takes it again. -/
theorem read_havoc_head (r : Range) (rs : List Range) (s : State) {k : Nat} (hk : k < r.len)
    (h : ∀ q ∈ rs, q.has (r.base + k) = false) :
    (s.havoc (r :: rs)).mem.read (r.base + k) = Config.anyByte (s.draws + k) := by
  rw [State.havoc, read_havoc_frame rs _ h, read_anyBytes,
    if_pos ⟨Nat.le_add_right _ _, Nat.add_lt_add_left hk _⟩, Nat.add_sub_cancel_left]

/-! ### The reset -/

/-- A reset in mid-command leaves the registers at their reset values (rules R55, R262). -/
theorem resetDuring_resets {v : Word} {s t : State} (h : resetDuring v s = .next t) :
    ∃ u : State, t = u.resetRegs := by
  unfold resetDuring at h
  split at h
  · cases h; exact ⟨_, rfl⟩
  · split at h
    · cases h; exact ⟨_, rfl⟩
    · cases h
    · cases h; exact ⟨_, rfl⟩

section footprint
variable {i : Instr} {s t : State} (h : resetDuring (encode i) s = .next t)
include h

/-- A command that writes no memory loses none (rule R60). -/
theorem resetDuring_mem_of_none (hfp : s.footprint i = .none) : t.mem = s.mem := by
  simp only [resetDuring, decodeWord_encode, hfp] at h
  cases h
  rfl

/-- A command that writes memory leaves draws over the ranges it was about to write (rule R262). -/
theorem resetDuring_mem_of_writes {rs : List Range} (hfp : s.footprint i = .writes rs) :
    t.mem = (s.havoc rs).mem := by
  simp only [resetDuring, decodeWord_encode, hfp] at h
  cases h
  rfl

end footprint

/-! ### The footprint of a command in contract -/

/-- A CONVOLVE in contract writes its output tensor and its route's scratch (rules R71, R72). -/
theorem footprint_of_convReady {i : Instr} {b : Bool} {s : State} (hform : (i, b) ∈ convolveForms)
    (hready : s.convReady b) : s.footprint i = .writes (s.outRange :: s.convScratch s.route) := by
  have hconv : s.footprint i = s.convFootprint b := by
    simp only [convolveForms, List.mem_cons, Prod.mk.injEq, List.not_mem_nil, or_false] at hform
    rcases hform with ⟨rfl, rfl⟩ | ⟨rfl, rfl⟩ <;> rfl
  rw [hconv]
  unfold State.convFootprint
  rw [(convVerdict_go s b s.route).mpr ⟨hready, rfl⟩]
  rfl

/-- A PACK in contract writes its destination (rule R216). -/
theorem footprint_of_packReady {i : Instr} {mode : PackMode} {s : State} (hform : (i, mode) ∈ packForms)
    (hready : s.packReady mode) : s.footprint i = .writes [s.packRange mode] := by
  have hpack : s.footprint i = s.packFootprint mode := by
    simp only [packForms, List.mem_cons, Prod.mk.injEq, List.not_mem_nil, or_false] at hform
    rcases hform with ⟨rfl, rfl⟩ | ⟨rfl, rfl⟩ | ⟨rfl, rfl⟩ <;> rfl
  rw [hpack]
  unfold State.packFootprint
  rw [(packVerdict_go s mode s.route).mpr ⟨hready, rfl⟩]

/-- Only CONVOLVE and PACK have a footprint (rule R60). -/
theorem footprint_of_memoryless {i : Instr} (h : i ∈ [Instr.nop, .planSize, .setScratch, .requant, .requantO])
    (s : State) : s.footprint i = .none := by
  simp only [List.mem_cons, List.not_mem_nil, or_false] at h
  rcases h with rfl | rfl | rfl | rfl | rfl <;> rfl

/-- An address outside the scratch a route needs lies in no scratch range of the CONVOLVE (rules R72, R165). -/
theorem convScratch_has_eq_false {s : State} {path : Path} {a : Nat}
    (h : needsScratch path = true → s.scratchRange.has a = false) :
    ∀ r ∈ s.convScratch path, r.has a = false := by
  intro r hr
  rw [State.convScratch] at hr
  split at hr
  · next hneeds =>
    rw [List.mem_singleton.mp hr]
    exact h hneeds
  · cases hr

/-! ### What an interrupted command loses -/

/-- The reset of a CONVOLVE in contract, byte by byte: the frame, the output tensor and the scratch. -/
theorem resetDuring_convolve {i : Instr} {b : Bool} {s t : State} (h : resetDuring (encode i) s = .next t)
    (hform : (i, b) ∈ convolveForms) (hready : s.convReady b) :
    (∀ a, s.outRange.has a = false → (needsScratch s.route = true → s.scratchRange.has a = false) →
        t.mem.read a = s.mem.read a)
      ∧ (∀ k, k < s.shape.outLen → t.mem.read (s.regs.outAddr.toNat + k) = Config.anyByte (s.draws + k))
      ∧ (needsScratch s.route = true → ∀ k, k < s.plannedSize →
          t.mem.read (s.scratchBase.toNat + k) = Config.anyByte (s.draws + s.shape.outLen + k)) := by
  rw [resetDuring_mem_of_writes h (footprint_of_convReady hform hready)]
  refine ⟨fun a hout hscratch => ?_, fun k hk => ?_, fun hneeds k hk => ?_⟩
  · exact read_havoc_frame _ s (List.forall_mem_cons.mpr ⟨hout, convScratch_has_eq_false hscratch⟩)
  · have hout : s.outRange.has (s.outRange.base + k) = true :=
      (has_iff _ _).mpr ⟨Nat.le_add_right _ _, Nat.add_lt_add_left hk _⟩
    exact read_havoc_head s.outRange _ s hk (convScratch_has_eq_false fun hneeds =>
      (disjoint_iff _ _).mp (convReady_out_disjoint_scratch hready hneeds) _ hout)
  · rw [State.convScratch, if_pos hneeds, State.havoc]
    exact read_havoc_head s.scratchRange [] _ hk (by simp)

/-- The reset of a PACK in contract, byte by byte: the frame and the destination. -/
theorem resetDuring_pack {i : Instr} {mode : PackMode} {s t : State} (h : resetDuring (encode i) s = .next t)
    (hform : (i, mode) ∈ packForms) (hready : s.packReady mode) :
    (∀ a, (s.packRange mode).has a = false → t.mem.read a = s.mem.read a)
      ∧ ∀ k, k < s.shape.packLen mode → t.mem.read (s.packDst + k) = Config.anyByte (s.draws + k) := by
  rw [resetDuring_mem_of_writes h (footprint_of_packReady hform hready)]
  refine ⟨fun a ha => ?_, fun k hk => ?_⟩
  · exact read_havoc_frame _ s (List.forall_mem_singleton.mpr ha)
  · exact read_havoc_head (s.packRange mode) [] s hk (by simp)

/-- Settles O58: the state the host's access leaves to the reset differs from `s` in `host` only. -/
theorem midCommandResetLosesOnlyTheFootprint : Obligations.MidCommandResetLosesOnlyTheFootprint := by
  unfold Obligations.MidCommandResetLosesOnlyTheFootprint
  intro s t i rest hhost hstep
  rw [step_cons hhost] at hstep
  have hreset : resetDuring (encode i) { s with host := rest } = .next t := hstep
  refine ⟨fun idx => ?_,
    fun b hform hready => resetDuring_convolve (s := { s with host := rest }) hreset hform hready,
    fun mode hform hready => resetDuring_pack (s := { s with host := rest }) hreset hform hready,
    fun hi => resetDuring_mem_of_none (s := { s with host := rest }) hreset (footprint_of_memoryless hi _)⟩
  obtain ⟨u, rfl⟩ := resetDuring_resets hreset
  exact regRead_resetRegs u idx

end Sys2Proof.Machine
end
